-- ==== Sys2Proof/Word.lean ====
section
/-! DEFINITION. The words of the port: 00_scope.md R9 (data paths of 64 bits, command word of 32 bits, index
operands of 8 bits). -/

namespace Sys2Proof

/-- An 8-bit operand field of the command word, or one byte of a serialised word (R9, R43). -/
abbrev Byte := BitVec 8

/-- A command word `CMD` (R62). -/
abbrev Cmd := BitVec 32

/-- A word of the write-data or read-data path (R9). -/
abbrev Data := BitVec 64

end Sys2Proof
end

