-- ==== Sys2Proof/Syntax.lean ====
section
/-! DEFINITION. The requests: one constructor per row of spec/opcode_table.json, with the operands that
30_encoding.md R68 decodes. `r` and `k` are the unsigned register and field indices (R64, R65); `bit`, `start`, `stop`
and `size` are signed (R63). The write data is no operand of the command word: it stands on `WDATA` (R60, R65). -/

namespace Sys2Proof

/-- A decoded request (R66, R68). -/
inductive Instr where
  /-- WIDTH rN (R101). -/
  | width (r : Nat)
  /-- READ rN (R102). -/
  | read (r : Nat)
  /-- RDBIT rN, bit (R105). -/
  | rdbit (r : Nat) (bit : Int)
  /-- WRBIT rN, bit, value (R103). -/
  | wrbit (r : Nat) (bit : Int)
  /-- RDRANGE rN, start, stop (R106). -/
  | rdrange (r : Nat) (start stop : Int)
  /-- RDREST rN, start (R107). -/
  | rdrest (r : Nat) (start : Int)
  /-- WRRANGE rN, start, size, value (R108). -/
  | wrrange (r : Nat) (start size : Int)
  /-- FGET rN, fK (R151). -/
  | fget (r k : Nat)
  /-- FSET rN, fK, value (R152). -/
  | fset (r k : Nat)
deriving DecidableEq, Repr

/-- The mnemonic of a request, as spec/opcode_table.json spells it. -/
def Instr.mnemonic : Instr → String
  | .width _ => "WIDTH"
  | .read _ => "READ"
  | .rdbit _ _ => "RDBIT"
  | .wrbit _ _ => "WRBIT"
  | .rdrange _ _ _ => "RDRANGE"
  | .rdrest _ _ => "RDREST"
  | .wrrange _ _ _ => "WRRANGE"
  | .fget _ _ => "FGET"
  | .fset _ _ => "FSET"

/-- The one register a request names (R22). -/
def Instr.reg : Instr → Nat
  | .width r => r
  | .read r => r
  | .rdbit r _ => r
  | .wrbit r _ => r
  | .rdrange r _ _ => r
  | .rdrest r _ => r
  | .wrrange r _ _ => r
  | .fget r _ => r
  | .fset r _ => r

/-- The requests that write `x[r]` on success (R23). -/
def Instr.writes : Instr → Bool
  | .width _ => false
  | .read _ => false
  | .rdbit _ _ => false
  | .wrbit _ _ => true
  | .rdrange _ _ _ => false
  | .rdrest _ _ => false
  | .wrrange _ _ _ => true
  | .fget _ _ => false
  | .fset _ _ => true

end Sys2Proof
end

