-- ==== Sys2Proof/WellFormed.lean ====
section
/-! DEFINITION. Which requests a command word can carry: the ranges of the operand fields (30_encoding.md R63, R64,
R65). Whether a register or a field exists is no matter of form: the request decodes and fails later (R67). -/

namespace Sys2Proof

/-- The `R` field: `0..255` (R65). -/
def regOk (r : Nat) : Bool := decide (r ≤ 255)

/-- A signed 8-bit operand: `-128..127` (R63). -/
def signedOk (a : Int) : Bool := decide (-128 ≤ a) && decide (a ≤ 127)

/-- A field index: `0..255` (R64). -/
def fieldOk (k : Nat) : Bool := decide (k ≤ 255)

/-- Every operand of the request fits its field of the command word. -/
def Instr.wellFormed : Instr → Bool
  | .width r => regOk r
  | .read r => regOk r
  | .rdbit r bit => regOk r && signedOk bit
  | .wrbit r bit => regOk r && signedOk bit
  | .rdrange r start stop => regOk r && signedOk start && signedOk stop
  | .rdrest r start => regOk r && signedOk start
  | .wrrange r start size => regOk r && signedOk start && signedOk size
  | .fget r k => regOk r && fieldOk k
  | .fset r k => regOk r && fieldOk k

end Sys2Proof
end

