-- ==== Sys2Proof/Decode.lean ====
section
/-! DEFINITION. The command word: its fields (30_encoding.md R62), the decoder (R68), the reasons a word is illegal
(R69), the encoder, the opcode map as match and mask (R67), and words as bytes (20_memory.md R43). -/

namespace Sys2Proof

/-- Why a word is illegal: the four lines of R69. The port answers IllegalCommand for each; the reason is the
model's own and no state records it (log 9). -/
inductive Illegal where
  /-- `OP` is 0x0 or 0x9..0xF. -/
  | reservedOpcode
  /-- `Z` is not 0. -/
  | reservedZ
  /-- `D = 1` with an `OP` other than 0x5. -/
  | strayDefaultStop
  /-- A must-be-zero `A` or `B` is not zero. -/
  | mustBeZero
deriving DecidableEq, Repr

/-- `CMD[31:24]` (R62). -/
def fieldR (w : Cmd) : Byte := w.extractLsb' 24 8
/-- `CMD[23:16]` (R62). -/
def fieldB (w : Cmd) : Byte := w.extractLsb' 16 8
/-- `CMD[15:8]` (R62). -/
def fieldA (w : Cmd) : Byte := w.extractLsb' 8 8
/-- `CMD[7:5]` (R62). -/
def fieldZ (w : Cmd) : BitVec 3 := w.extractLsb' 5 3
/-- `CMD[4]` (R62). -/
def fieldD (w : Cmd) : BitVec 1 := w.extractLsb' 4 1
/-- `CMD[3:0]` (R62). -/
def fieldOP (w : Cmd) : BitVec 4 := w.extractLsb' 0 4

/-- `sext_8(f)` (00_scope.md R12): `f - 2^8` if `f[7] = 1`, and `f` otherwise. -/
def sext8 (f : Byte) : Int := if f.getLsbD 7 then (f.toNat : Int) - 256 else (f.toNat : Int)

/-- The request `i` if its must-be-zero operand fields are zero (R68, R69). -/
def whenZero (zero : Bool) (i : Instr) : Except Illegal Instr := if zero then .ok i else .error .mustBeZero

/-- R68: every word decodes to one request or to `Illegal`, here with the line of R69 it falls under. -/
def decode (w : Cmd) : Except Illegal Instr :=
  let r := (fieldR w).toNat
  let a := fieldA w
  let b := fieldB w
  if fieldZ w ≠ 0 then .error .reservedZ
  else match (fieldOP w).toNat, (fieldD w).toNat with
    | 1, 0 => whenZero (a == 0 && b == 0) (.width r)
    | 2, 0 => whenZero (a == 0 && b == 0) (.read r)
    | 3, 0 => whenZero (b == 0) (.rdbit r (sext8 a))
    | 4, 0 => whenZero (b == 0) (.wrbit r (sext8 a))
    | 5, 0 => .ok (.rdrange r (sext8 a) (sext8 b))
    | 5, 1 => whenZero (b == 0) (.rdrest r (sext8 a))
    | 6, 0 => .ok (.wrrange r (sext8 a) (sext8 b))
    | 7, 0 => whenZero (b == 0) (.fget r a.toNat)
    | 8, 0 => whenZero (b == 0) (.fset r a.toNat)
    | op, _ => .error (if 1 ≤ op ∧ op ≤ 8 then .strayDefaultStop else .reservedOpcode)

/-- The word with the given fields and `Z = 0` (R62). -/
def pack (r b a : Byte) (d : BitVec 1) (op : BitVec 4) : Cmd := r ++ b ++ a ++ 0#3 ++ d ++ op

/-- The 8-bit two's-complement field of a signed operand (R63). -/
def signedField (a : Int) : Byte := BitVec.ofInt 8 a

/-- The 8-bit field of an unsigned index (R64, R65). -/
def indexField (n : Nat) : Byte := BitVec.ofNat 8 n

/-- The command word of a well-formed request (R62, R66). -/
def encode : Instr → Cmd
  | .width r => pack (indexField r) 0 0 0 1
  | .read r => pack (indexField r) 0 0 0 2
  | .rdbit r bit => pack (indexField r) 0 (signedField bit) 0 3
  | .wrbit r bit => pack (indexField r) 0 (signedField bit) 0 4
  | .rdrange r start stop => pack (indexField r) (signedField stop) (signedField start) 0 5
  | .rdrest r start => pack (indexField r) 0 (signedField start) 1 5
  | .wrrange r start size => pack (indexField r) (signedField size) (signedField start) 0 6
  | .fget r k => pack (indexField r) 0 (indexField k) 0 7
  | .fset r k => pack (indexField r) 0 (indexField k) 0 8

/-- A row of the opcode map: a word `w` encodes the mnemonic when `w & mask = value` (R67, where `value` is the
column named match). -/
structure OpRow where
  mnemonic : String
  value : Cmd
  mask : Cmd
deriving DecidableEq, Repr

/-- The opcode map of R67. -/
def opTable : List OpRow :=
  [⟨"WIDTH", 0x00000001, 0x00FFFFFF⟩, ⟨"READ", 0x00000002, 0x00FFFFFF⟩, ⟨"RDBIT", 0x00000003, 0x00FF00FF⟩,
   ⟨"WRBIT", 0x00000004, 0x00FF00FF⟩, ⟨"RDRANGE", 0x00000005, 0x000000FF⟩, ⟨"RDREST", 0x00000015, 0x00FF00FF⟩,
   ⟨"WRRANGE", 0x00000006, 0x000000FF⟩, ⟨"FGET", 0x00000007, 0x00FF00FF⟩, ⟨"FSET", 0x00000008, 0x00FF00FF⟩]

/-- R67: the word matches the row. -/
def OpRow.fits (row : OpRow) (w : Cmd) : Bool := w &&& row.mask == row.value

/-- The bytes of a command word, little-endian: byte `j` is `w[8j+7:8j]` (R43). -/
def cmdBytes (w : Cmd) : List Byte :=
  [w.extractLsb' 0 8, w.extractLsb' 8 8, w.extractLsb' 16 8, w.extractLsb' 24 8]

/-- The command word whose little-endian bytes are given, lowest first (R43). -/
def cmdOfBytes (b0 b1 b2 b3 : Byte) : Cmd := b3 ++ b2 ++ b1 ++ b0

/-- The bytes of a write-data word, little-endian (R43). -/
def dataBytes (w : Data) : List Byte :=
  [w.extractLsb' 0 8, w.extractLsb' 8 8, w.extractLsb' 16 8, w.extractLsb' 24 8,
   w.extractLsb' 32 8, w.extractLsb' 40 8, w.extractLsb' 48 8, w.extractLsb' 56 8]

/-- Decoding a command stream written as bytes (R43, R70): the first word's request and the bytes after it; nothing
for a stream shorter than one word or an illegal word. -/
def decodeBytes : List Byte → Option (Instr × List Byte)
  | b0 :: b1 :: b2 :: b3 :: rest =>
    match decode (cmdOfBytes b0 b1 b2 b3) with
    | .ok i => some (i, rest)
    | .error _ => none
  | _ => none

/-- The command word whose low `nbits` bits are those of `w` and whose other bits are 0. -/
def wordOfTable (nbits w : Nat) : Cmd := BitVec.ofNat 32 (w % 2 ^ nbits)

/-- What the decoder reads from the opcode-table word `w` of `nbits` bits, laid out as bytes. -/
def decodeTableWord (nbits w : Nat) : Option Instr := (decodeBytes (cmdBytes (wordOfTable nbits w))).map (·.1)

end Sys2Proof
end

