-- ==== Sys2Proof/Config.lean ====
section
/-! DEFINITION. The configuration of an instance, `CATALOG` and `ALLOWED_NAMES` (00_scope.md R8), and the reasons
elaboration refuses one (70_reset_and_hazards.md R233). Raw data: an invalid configuration can be written down, and
Machine/Elaborate.lean refuses it. -/

namespace Sys2Proof

/-- A field entry `(field_name, start, size)` of `fields_r` (R8, R27). Start and size are integers, so that the
entries R150 refuses can be written. -/
structure FieldEntry where
  name : String
  start : Int
  size : Int
deriving DecidableEq, Repr

/-- A catalog entry `{name_r, W_r, init_r, fields_r}` (R8). `init` is an integer, so that the negative one R233 step 2c
refuses can be written. `init` defaults to 0 (R30). -/
structure RegEntry where
  name : String
  width : Nat
  init : Int := 0
  fields : List FieldEntry := []
deriving DecidableEq, Repr

/-- The two parts of a configuration (R8). `allowedNames` stands for a set: order and repeats have no effect. -/
structure Config where
  catalog : List RegEntry
  allowedNames : List String
deriving DecidableEq, Repr

/-- Why elaboration refuses a configuration (R233, in its order). `r` is the entry's index, `k` the field's. -/
inductive ConfigError where
  /-- Step 1: not `1 <= NREG <= 256`. -/
  | badCount
  /-- Step 2a: `name_r` is not in `ALLOWED_NAMES` (the source's UnknownRegisterName, R210). -/
  | unknownRegisterName (r : Nat)
  /-- Step 2b: not `1 <= W_r <= 64`. -/
  | badWidth (r : Nat)
  /-- Step 2c: `init_r` is no natural number. -/
  | badInit (r : Nat)
  /-- Step 2d: more than 256 field entries. -/
  | tooManyFields (r : Nat)
  /-- Step 2e: a field entry with `start < 0` or `size < 1` (the source's InvalidDefinition, R150). -/
  | invalidDefinition (r k : Nat)
deriving DecidableEq, Repr

/-- The test configuration `CAT_EX` (95_test_vectors.md section 0, D28). DESIGN CHOICE, unsafe: the model resets to
this catalog because `State.reset` is one value and CATALOG is an open parameter (log 2). -/
def Config.catEx : Config where
  catalog :=
    [{ name := "EAX", width := 32, init := 0,
       fields := [⟨"low_byte", 0, 8⟩, ⟨"byte1", 8, 8⟩, ⟨"low_half", 0, 16⟩, ⟨"overhang", 24, 16⟩] },
     { name := "FLAG1", width := 1, init := 3 },
     { name := "WIDE", width := 64, init := 0xFFFFFFFFFFFFFFFF, fields := [⟨"top", 63, 1⟩] }]
  allowedNames := ["EAX", "FLAG1", "WIDE"]

end Sys2Proof
end

