-- ==== Sys2Proof/Machine/Elaborate.lean ====
section
/-! DEFINITION. The elaboration checks of a configuration, in the order of 70_reset_and_hazards.md R233. -/

namespace Sys2Proof.Machine

/-- Step 2e on one field entry: `start >= 0` and `size >= 1` (41_bitfield_view.md R150). The width is not checked. -/
def fieldEntryOk (f : FieldEntry) : Bool := decide (0 ≤ f.start) && decide (1 ≤ f.size)

/-- Step 2e on the entries from index `k` on: the first bad one. -/
def checkFields (r : Nat) : Nat → List FieldEntry → Option ConfigError
  | _, [] => none
  | k, f :: fs => if fieldEntryOk f then checkFields r (k + 1) fs else some (.invalidDefinition r k)

/-- Step 2 on the catalog entry of index `r`: checks a to e, the first that fails. -/
def checkEntry (allowed : List String) (r : Nat) (e : RegEntry) : Option ConfigError :=
  if e.name ∉ allowed then some (.unknownRegisterName r)
  else if e.width < 1 ∨ 64 < e.width then some (.badWidth r)
  else if e.init < 0 then some (.badInit r)
  else if 256 < e.fields.length then some (.tooManyFields r)
  else checkFields r 0 e.fields

/-- Step 2 on the entries from index `r` on, in catalog order. -/
def checkEntries (allowed : List String) : Nat → List RegEntry → Option ConfigError
  | _, [] => none
  | r, e :: es =>
    match checkEntry allowed r e with
    | some err => some err
    | none => checkEntries allowed (r + 1) es

/-- R233: the first failing check of a configuration, or none where the configuration is valid. -/
def configError (cfg : Config) : Option ConfigError :=
  if cfg.catalog.length < 1 ∨ 256 < cfg.catalog.length then some .badCount
  else checkEntries cfg.allowedNames 0 cfg.catalog

end Sys2Proof.Machine
end

