-- ==== Sys2Proof/Machine/Operands.lean ====
section
/-! DEFINITION. The operand forms: bit ranges and masks of a register value (00_scope.md R11, R12), the bounds checks
of 60_exceptions.md R201, and the read-data path. Register values are natural numbers and all arithmetic is exact
(R11). Shifts and masks are taken only at the non-negative amounts the checks have let through (40_register_port.md
R110), so `Int.toNat` there loses nothing. -/

namespace Sys2Proof.Machine

/-- `ones(n) = (1 << n) - 1` (R12). -/
def ones (n : Nat) : Nat := (1 <<< n) - 1

/-- `fieldmask(start, size) = ones(size) << start` (R12). -/
def fieldmask (start size : Nat) : Nat := ones size <<< start

/-- `v & ~m` for natural numbers: clears in `v` exactly the bits set in `m` (R11; log 14). -/
def clearMask (v m : Nat) : Nat := v ^^^ (v &&& m)

/-- `v[hi:lo] = (v >> lo) & ones(hi - lo + 1)`, for `hi >= lo` (R12). -/
def bits (v hi lo : Nat) : Nat := (v >>> lo) &&& ones (hi - lo + 1)

/-- `zext_64(v)`: `v` on the 64-bit read-data path, zeros above its width (R12, R45). -/
def zext64 (v : Nat) : Data := BitVec.ofNat 64 v

/-- Reset value of a register, `init_r & ones(W_r)` (10_state.md R30). Elaboration refuses a negative `init_r`. -/
def resetValue (e : RegEntry) : Nat := e.init.toNat &&& ones e.width

/-- Reset values of the whole file, in catalog order (R30, R41). -/
def resetValues (cfg : Config) : List Nat := cfg.catalog.map resetValue

/-- The single-bit check of WRBIT and RDBIT: `bit < 0 or bit >= W` (R103, R105). -/
def bitOutside (width : Nat) (bit : Int) : Bool := decide (bit < 0) || decide ((width : Int) ≤ bit)

/-- The range check of RDRANGE and RDREST: `start < 0 or stop > W or stop <= start` (R106, R107). -/
def rangeOutside (width : Nat) (start stop : Int) : Bool :=
  decide (start < 0) || decide ((width : Int) < stop) || decide (stop ≤ start)

/-- The range check of WRRANGE: `start < 0 or size <= 0 or start + size > W` (R108). -/
def spanOutside (width : Nat) (start size : Int) : Bool :=
  decide (start < 0) || decide (size ≤ 0) || decide ((width : Int) < start + size)

/-- The deferred width check of FGET and FSET: `s + n > W` (R151, R152). -/
def fieldOutside (width : Nat) (f : FieldEntry) : Bool := decide ((width : Int) < f.start + f.size)

/-- `(x >> start) & ones(stop - start)` (R106). -/
def readRange (x : Nat) (start stop : Int) : Nat := (x >>> start.toNat) &&& ones (stop - start).toNat

/-- `(x & fieldmask(start, size)) >> start` (R151). -/
def readField (x : Nat) (start size : Int) : Nat := (x &&& fieldmask start.toNat size.toNat) >>> start.toNat

/-- `(x & ~m) | ((v << start) & m)` with `m = fieldmask(start, size)` (R108, R152). -/
def replaceBits (x : Nat) (start size : Int) (v : Nat) : Nat :=
  clearMask x (fieldmask start.toNat size.toNat) ||| ((v <<< start.toNat) &&& fieldmask start.toNat size.toNat)

/-- `(x >> bit) & 1` (R105). -/
def readBit (x : Nat) (bit : Int) : Nat := (x >>> bit.toNat) &&& 1

/-- `x | (1 << bit)` (R103). -/
def setBit (x : Nat) (bit : Int) : Nat := x ||| (1 <<< bit.toNat)

/-- `x & ~(1 << bit)` (R103). -/
def clearBit (x : Nat) (bit : Int) : Nat := clearMask x (1 <<< bit.toNat)

end Sys2Proof.Machine
end

