-- ==== Sys2Proof/Machine/State.lean ====
section
/-! DEFINITION. The state of the block (10_state.md R20; response latch 30_encoding.md R61), with the configuration it
was built for (00_scope.md R8; log 1) and the input pins (30_encoding.md R60; log 3), and the state after reset. -/

namespace Sys2Proof.Machine

/-- The status of a response (60_exceptions.md R200). -/
inductive Status where
  | ok
  | outOfRange
  | invalidBitValue
  | valueTooLarge
  /-- Reserved: never on the port (R200, 93_implementation_defined.md K3). -/
  | invalidDefinition
  | unknownRegisterName
  | unknownFieldName
  | illegalCommand
deriving DecidableEq, Repr

/-- The reasons a step can fault: none. Every error of the block is the status of a response, after which the block
accepts the next request normally (60_exceptions.md R204); the request that errs has a next state. Safe. -/
inductive Fault where
deriving DecidableEq, Repr

/-- The reasons a step is refused. -/
inductive Refusal where
  /-- The instruction has no meaning yet. Raised by no arm of `exec`. Safe. -/
  | notModelled (mnemonic : String)
  /-- Raised by `step` where elaboration refuses the configuration in the state: no such instance exists
  (60_exceptions.md R210, 70_reset_and_hazards.md R233; log 8). Safe. -/
  | invalidConfiguration (e : ConfigError)
deriving DecidableEq, Repr

/-- What the input pins carry at one rising edge of `clk` (30_encoding.md R60). -/
structure PortIn where
  rst : Bool
  reqValid : Bool
  cmd : Cmd
  wdata : Data
deriving DecidableEq, Repr

/-- No reset and no request; the parallel buses at zero. -/
def PortIn.idle : PortIn := { rst := false, reqValid := false, cmd := 0, wdata := 0 }

/-- The state of the machine between two rising edges. -/
structure State where
  /-- `CATALOG` and `ALLOWED_NAMES` (R8), which no step changes. -/
  cfg : Config
  /-- `x[r]`, in catalog order (R20, R41). -/
  x : List Nat
  /-- `RSP_VALID` (R61). -/
  rspValid : Bool
  /-- `RSP_STATUS` (R61). -/
  rspStatus : BitVec 3
  /-- `RSP_RDATA` (R61). -/
  rspRdata : Data
  /-- What the pins carry at the next edge (R60; log 3). -/
  port : PortIn
  /-- What the pins carry at the edges after that one, nearest first (log 3). -/
  later : List PortIn
deriving DecidableEq, Repr

/-- The state right after reset of an instance with the given configuration (R30, R230), the pins idle (log 5). -/
def State.ofConfig (cfg : Config) : State where
  cfg := cfg
  x := resetValues cfg
  rspValid := false
  rspStatus := 0
  rspRdata := 0
  port := .idle
  later := []

/-- The machine right after reset: the instance of `CAT_EX` (log 2). -/
def State.reset : State := .ofConfig .catEx

end Sys2Proof.Machine
end

