-- ==== Sys2Proof/Machine/Flags.lean ====
section
/-! DEFINITION. The status codes of a response. The block has no flags and no condition codes (10_state.md R25): this
is all a request reports about its outcome. -/

namespace Sys2Proof.Machine

/-- The code on `RSP_STATUS[2:0]` (60_exceptions.md R200). -/
def Status.code : Status → BitVec 3
  | .ok => 0
  | .outOfRange => 1
  | .invalidBitValue => 2
  | .valueTooLarge => 3
  | .invalidDefinition => 4
  | .unknownRegisterName => 5
  | .unknownFieldName => 6
  | .illegalCommand => 7

/-- The kind of the source's taxonomy that a refused configuration raises, where it has one (60_exceptions.md R201,
R210); the other checks of R233 make the configuration invalid without a kind. -/
def configErrorStatus : ConfigError → Option Status
  | .badCount => none
  | .unknownRegisterName _ => some .unknownRegisterName
  | .badWidth _ => none
  | .badInit _ => none
  | .tooManyFields _ => none
  | .invalidDefinition _ _ => some .invalidDefinition

end Sys2Proof.Machine
end

