-- ==== Sys2Proof/Machine/Ops.lean ====
section
/-! DEFINITION. The named operations on the state: reading and writing `x[r]`, answering, raising an error (the one
shared operation every error goes through), the common step of every request (40_register_port.md R100), reset, the
idle edge, and building an instance. -/

namespace Sys2Proof.Machine

/-- `x[r]` (00_scope.md R13). In a well-formed state the list holds every register of the catalog (log 7). -/
def State.reg (s : State) (r : Nat) : Nat := s.x.getD r 0

/-- `x[r] <- v` (00_scope.md R13). -/
def State.setReg (s : State) (r v : Nat) : State := { s with x := s.x.set r v }

/-- The `WDATA` operand of the request at this edge, an unsigned 64-bit value (30_encoding.md R65). -/
def State.wdata (s : State) : Nat := s.port.wdata.toNat

/-- The catalog entry of register index `r`, if there is one (20_memory.md R41). -/
def State.entryAt (s : State) (r : Nat) : Option RegEntry := s.cfg.catalog[r]?

/-- `respond(status, rdata)` (R13): the response stands on the pins in the next cycle (70_reset_and_hazards.md R234). -/
def State.respond (s : State) (st : Status) (rdata : Nat) : State :=
  { s with rspValid := true, rspStatus := st.code, rspRdata := zext64 rdata }

/-- `raise E` (R13): taking an error. The response carries its code with `RDATA = 0`; nothing is saved, no register is
written, control goes nowhere (60_exceptions.md R203, R204). There is no return from it (R205). -/
def State.raise (s : State) (st : Status) : State := s.respond st 0

/-- What the rule of a request ends in: an error, an answer with read data, or a new value of the register. -/
inductive Effect where
  /-- `raise E`. -/
  | fail (e : Status)
  /-- `respond(OK, rdata)` with nothing written. -/
  | answer (rdata : Nat)
  /-- `x[r] <- v; respond(OK, 0)`. -/
  | update (v : Nat)
deriving DecidableEq, Repr

/-- The end of a request on register `r`: its one write, if it has one, and its response (20_memory.md R46). -/
def State.complete (s : State) (r : Nat) : Effect → State
  | .fail e => s.raise e
  | .answer v => s.respond .ok v
  | .update v => (s.setReg r v).respond .ok 0

/-- The common step of every request: the register check, then the request's own rule on `W[r]`, `F[r]` and `x[r]`
(40_register_port.md R100). -/
def State.execute (s : State) (r : Nat) (rule : RegEntry → Nat → Effect) : State :=
  match s.entryAt r with
  | none => s.raise .unknownRegisterName
  | some e => s.complete r (rule e (s.reg r))

/-- `RSP_VALID` cleared, and with it `RSP_STATUS` and `RSP_RDATA` (70_reset_and_hazards.md R230, R234). -/
def State.clearResponse (s : State) : State := { s with rspValid := false, rspStatus := 0, rspRdata := 0 }

/-- A reset edge: every register at its reset value, no response; a request on the pins is ignored (R230, R231). -/
def State.applyReset (s : State) : State := { s with x := resetValues s.cfg }.clearResponse

/-- An edge without a request: nothing is accepted and no response follows (R234). -/
def State.idleEdge (s : State) : State := s.clearResponse

/-- What the pins carry at the edge after this one; idle once the list is used up (log 4). -/
def State.advance (s : State) : State := { s with port := s.later.headD .idle, later := s.later.tail }

/-- Elaboration and the first reset: the instance in its reset state, or the check that refuses the configuration
(60_exceptions.md R210, 70_reset_and_hazards.md R233). -/
def instantiate (cfg : Config) : Except ConfigError State :=
  match configError cfg with
  | some e => .error e
  | none => .ok (.ofConfig cfg)

end Sys2Proof.Machine
end

