-- ==== Sys2Proof/Machine/BitfieldView.lean ====
section
/-! DEFINITION. The bitfield view requests: FGET and FSET (41_bitfield_view.md), in the form of the register port's.
The field table is read-only configuration; a field holds no value of its own (10_state.md R27). -/

namespace Sys2Proof.Machine

open Host (Outcome)

/-- FGET's rule (R151). -/
def ruleFget (k : Nat) (e : RegEntry) (x : Nat) : Effect :=
  match e.fields[k]? with
  | none => .fail .unknownFieldName
  | some f =>
    if fieldOutside e.width f then .fail .outOfRange
    else .answer (readField x f.start f.size)

/-- FSET's rule (R152): a read-modify-write of the parent register; `OutOfRange` comes before `ValueTooLarge`. -/
def ruleFset (k v : Nat) (e : RegEntry) (x : Nat) : Effect :=
  match e.fields[k]? with
  | none => .fail .unknownFieldName
  | some f =>
    if fieldOutside e.width f then .fail .outOfRange
    else if ones f.size.toNat < v then .fail .valueTooLarge
    else .update (replaceBits x f.start f.size v)

/-- FGET (R151). -/
def execFget (r k : Nat) (s : State) : Outcome State Fault Refusal := .next (s.execute r (ruleFget k))

/-- FSET (R152). -/
def execFset (r k : Nat) (s : State) : Outcome State Fault Refusal := .next (s.execute r (ruleFset k s.wdata))

end Sys2Proof.Machine
end

