-- ==== Sys2Proof/Machine/RegisterPort.lean ====
section
/-! DEFINITION. The register port requests: WIDTH, READ, RDBIT, WRBIT, RDRANGE, RDREST, WRRANGE (40_register_port.md).
A rule is the request's own pseudocode on its entry `e` (`W[r]`, `F[r]`), the register value `x` and the write data
`v`; it starts after the register check of R100, which `State.execute` makes. -/

namespace Sys2Proof.Machine

open Host (Outcome)

/-- WIDTH's rule (R101). -/
def ruleWidth (e : RegEntry) (_x : Nat) : Effect := .answer e.width

/-- READ's rule (R102). -/
def ruleRead (_e : RegEntry) (x : Nat) : Effect := .answer x

/-- RDBIT's rule (R105). -/
def ruleRdbit (bit : Int) (e : RegEntry) (x : Nat) : Effect :=
  if bitOutside e.width bit then .fail .outOfRange
  else .answer (readBit x bit)

/-- WRBIT's rule (R103). The value is not masked: any `v >= 2` is refused. -/
def ruleWrbit (bit : Int) (v : Nat) (e : RegEntry) (x : Nat) : Effect :=
  if bitOutside e.width bit then .fail .outOfRange
  else if v ≠ 0 ∧ v ≠ 1 then .fail .invalidBitValue
  else if v = 1 then .update (setBit x bit)
  else .update (clearBit x bit)

/-- RDRANGE's rule (R106). -/
def ruleRdrange (start stop : Int) (e : RegEntry) (x : Nat) : Effect :=
  if rangeOutside e.width start stop then .fail .outOfRange
  else .answer (readRange x start stop)

/-- RDREST's rule (R107): `stop` is the width. -/
def ruleRdrest (start : Int) (e : RegEntry) (x : Nat) : Effect :=
  if rangeOutside e.width start e.width then .fail .outOfRange
  else .answer (readRange x start e.width)

/-- WRRANGE's rule (R108). The value check comes after the bounds check, so the size is positive there. -/
def ruleWrrange (start size : Int) (v : Nat) (e : RegEntry) (x : Nat) : Effect :=
  if spanOutside e.width start size then .fail .outOfRange
  else if ones size.toNat < v then .fail .valueTooLarge
  else .update (replaceBits x start size v)

/-- WIDTH (R101). -/
def execWidth (r : Nat) (s : State) : Outcome State Fault Refusal := .next (s.execute r ruleWidth)

/-- READ (R102). -/
def execRead (r : Nat) (s : State) : Outcome State Fault Refusal := .next (s.execute r ruleRead)

/-- RDBIT (R105). -/
def execRdbit (r : Nat) (bit : Int) (s : State) : Outcome State Fault Refusal := .next (s.execute r (ruleRdbit bit))

/-- WRBIT (R103). -/
def execWrbit (r : Nat) (bit : Int) (s : State) : Outcome State Fault Refusal :=
  .next (s.execute r (ruleWrbit bit s.wdata))

/-- RDRANGE (R106). -/
def execRdrange (r : Nat) (start stop : Int) (s : State) : Outcome State Fault Refusal :=
  .next (s.execute r (ruleRdrange start stop))

/-- RDREST (R107). -/
def execRdrest (r : Nat) (start : Int) (s : State) : Outcome State Fault Refusal :=
  .next (s.execute r (ruleRdrest start))

/-- WRRANGE (R108). -/
def execWrrange (r : Nat) (start size : Int) (s : State) : Outcome State Fault Refusal :=
  .next (s.execute r (ruleWrrange start size s.wdata))

end Sys2Proof.Machine
end

