-- ==== Sys2Proof/Machine/Dispatch.lean ====
section
/-! DEFINITION. The meaning of each request, one arm per constructor of Instr (40_register_port.md R100). -/

namespace Sys2Proof.Machine

def exec (i : Instr) (s : State) : Host.Outcome State Fault Refusal :=
  match i with
  | .width r => Sys2Proof.Machine.execWidth r s
  | .read r => Sys2Proof.Machine.execRead r s
  | .rdbit r bit => Sys2Proof.Machine.execRdbit r bit s
  | .wrbit r bit => Sys2Proof.Machine.execWrbit r bit s
  | .rdrange r start stop => Sys2Proof.Machine.execRdrange r start stop s
  | .rdrest r start => Sys2Proof.Machine.execRdrest r start s
  | .wrrange r start size => Sys2Proof.Machine.execWrrange r start size s
  | .fget r k => Sys2Proof.Machine.execFget r k s
  | .fset r k => Sys2Proof.Machine.execFset r k s

end Sys2Proof.Machine
end

