-- ==== Sys2Proof/Machine/Edge.lean ====
section
/-! DEFINITION. One rising edge of `clk` (70_reset_and_hazards.md R231, R234): reset, an accepted request, or
neither. -/

namespace Sys2Proof.Machine

open Host (Outcome)

/-- A change of the next state that leaves a fault or a refusal as it is. -/
def onNext (f : State → State) : Outcome State Fault Refusal → Outcome State Fault Refusal
  | .next s => .next (f s)
  | .fault r => .fault r
  | .refused r => .refused r

/-- The accepted request, decoded and executed; an illegal word answers IllegalCommand (30_encoding.md R68, R69). -/
def acceptRequest (s : State) : Outcome State Fault Refusal :=
  match decode s.port.cmd with
  | .ok i => exec i s
  | .error _ => .next (s.raise .illegalCommand)

/-- What happens at the edge, by what the pins carry: `rst` comes before a request (R231). -/
def clockEdge (s : State) : Outcome State Fault Refusal :=
  if s.port.rst then .next s.applyReset
  else if s.port.reqValid then acceptRequest s
  else .next s.idleEdge

/-- The pins with a request on them: the command word of an opcode-table word, `WDATA` zero (log 6). -/
def portOfWord (nbits w : Nat) : PortIn :=
  { rst := false, reqValid := true, cmd := wordOfTable nbits w, wdata := 0 }

end Sys2Proof.Machine
end

