-- ==== Sys2Proof/Machine/Step.lean ====
section
/-! DEFINITION. One step of the machine: one rising edge of `clk`, after which the pins carry what they carry at the
next one (log 3). -/

namespace Sys2Proof.Machine

/-- The step. A state whose configuration elaboration refuses belongs to no instance (R210, R233; log 8). -/
def step (s : State) : Host.Outcome State Fault Refusal :=
  match configError s.cfg with
  | some e => .refused (.invalidConfiguration e)
  | none => onNext State.advance (clockEdge s)

/-- `s` with the opcode-table word `w` presented as the request of the next edge (log 5, log 6). -/
def State.withFetchWord (s : State) (nbits w : Nat) : State := { s with port := portOfWord nbits w }

end Sys2Proof.Machine
end

