-- ==== Sys2Proof/Machine/Arbiter.lean ====
section
/-! DEFINITION. Several requesters on the one port: the arbiter in front of it presents one request at a time, in an
order that is the open parameter ARBITRATION (20_memory.md R48, 60_exceptions.md R208, 92_eei_decisions.md D25; log 11).
The order is plain data, the requester to serve at each turn; a claim quantifies over every order. -/

namespace Sys2Proof.Machine

/-- A request: one command word plus one write-data word (00_scope.md R14). -/
structure Request where
  cmd : Cmd
  wdata : Data
deriving DecidableEq, Repr

/-- The pins that present a request (30_encoding.md R60). -/
def Request.pins (q : Request) : PortIn := { rst := false, reqValid := true, cmd := q.cmd, wdata := q.wdata }

/-- The next request of requester `n`, and the queues without it; nothing if it has none waiting. -/
def takeFrom : Nat → List (List Request) → Option (Request × List (List Request))
  | _, [] => none
  | 0, [] :: _ => none
  | 0, (q :: qs) :: rest => some (q, qs :: rest)
  | n + 1, qs :: rest =>
    match takeFrom n rest with
    | none => none
    | some (q, rest') => some (q, qs :: rest')

/-- The requests in the order the port accepts them, each with its requester: `order` says whose turn it is, and a turn
of a requester with nothing waiting passes (R48: the order the arbiter chooses is the order of the run). -/
def arbitrate : List Nat → List (List Request) → List (Nat × Request)
  | [], _ => []
  | n :: order, queues =>
    match takeFrom n queues with
    | none => arbitrate order queues
    | some (q, queues') => (n, q) :: arbitrate order queues'

/-- `s` with the requests presented back to back from the next edge on (70_reset_and_hazards.md R234). -/
def State.withRequests (s : State) (qs : List Request) : State :=
  { s with port := (qs.map Request.pins).headD .idle, later := (qs.map Request.pins).tail }

end Sys2Proof.Machine
end

