-- ==== Sys2Proof/Machine/Assembler.lean ====
section
/-! DEFINITION. The assembler: the syntax of a line (30_encoding.md R71), the pseudo-instructions and the resolution of
names (R72, 41_bitfield_view.md R155). Tooling outside the hardware; what R71 leaves open of the text is in log 12. -/

namespace Sys2Proof.Machine

/-- A register operand: `rN`, or `REG name` (R71, R72). -/
inductive RegOperand where
  | index (n : Nat)
  | named (name : String)
deriving DecidableEq, Repr

/-- A field operand: `fK`, or a field's name (R71, R72). -/
inductive FieldOperand where
  | index (k : Nat)
  | named (name : String)
deriving DecidableEq, Repr

/-- A line: the forms of R71, then the pseudo-instructions of R72 that are lines of their own. -/
inductive AsmLine where
  | width (r : RegOperand)
  | read (r : RegOperand)
  | rdbit (r : RegOperand) (bit : Int)
  | wrbit (r : RegOperand) (bit : Int) (value : Nat)
  | rdrange (r : RegOperand) (start stop : Int)
  | rdrest (r : RegOperand) (start : Int)
  | wrrange (r : RegOperand) (start size : Int) (value : Nat)
  | fget (r : RegOperand) (f : FieldOperand)
  | fset (r : RegOperand) (f : FieldOperand) (value : Nat)
  | setbit (r : RegOperand) (bit : Int)
  | clrbit (r : RegOperand) (bit : Int)
  /-- The two-operand `RDRANGE rN, start`. -/
  | rdrangeRest (r : RegOperand) (start : Int)
  | wrall (r : RegOperand) (value : Nat)
deriving DecidableEq, Repr

/-- The register index an operand stands for; the index of the catalog entry of that name (R72). Where several entries
share the name, which no rule forbids, R72 does not say which: DESIGN CHOICE, the first one, as R155 has it for field
names (log 16). -/
def resolveReg (cfg : Config) : RegOperand → Option Nat
  | .index n => some n
  | .named name => cfg.catalog.findIdx? (fun e => e.name == name)

/-- The field index an operand stands for: the first entry of `fields_r` of that name (R72, R155). -/
def resolveField (cfg : Config) (r : Nat) : FieldOperand → Option Nat
  | .index k => some k
  | .named name => (cfg.catalog[r]?).bind fun e => e.fields.findIdx? (fun f => f.name == name)

/-- The request and the write data a line stands for. `WDATA` is 0 for the forms that do not write (R71). Nothing for
a name that does not resolve, and for WRALL on a register whose width the catalog does not give (R72). -/
def expandLine (cfg : Config) : AsmLine → Option (Instr × Nat)
  | .width r => (resolveReg cfg r).map fun n => (.width n, 0)
  | .read r => (resolveReg cfg r).map fun n => (.read n, 0)
  | .rdbit r bit => (resolveReg cfg r).map fun n => (.rdbit n bit, 0)
  | .wrbit r bit v => (resolveReg cfg r).map fun n => (.wrbit n bit, v)
  | .rdrange r start stop => (resolveReg cfg r).map fun n => (.rdrange n start stop, 0)
  | .rdrest r start => (resolveReg cfg r).map fun n => (.rdrest n start, 0)
  | .wrrange r start size v => (resolveReg cfg r).map fun n => (.wrrange n start size, v)
  | .fget r f => (resolveReg cfg r).bind fun n => (resolveField cfg n f).map fun k => (.fget n k, 0)
  | .fset r f v => (resolveReg cfg r).bind fun n => (resolveField cfg n f).map fun k => (.fset n k, v)
  | .setbit r bit => (resolveReg cfg r).map fun n => (.wrbit n bit, 1)
  | .clrbit r bit => (resolveReg cfg r).map fun n => (.wrbit n bit, 0)
  | .rdrangeRest r start => (resolveReg cfg r).map fun n => (.rdrest n start, 0)
  | .wrall r v => (resolveReg cfg r).bind fun n => (cfg.catalog[n]?).map fun e => (.wrrange n 0 e.width, v)

/-- The request a line assembles to; nothing where an operand is out of the range R71 gives it. -/
def assemble (cfg : Config) (line : AsmLine) : Option Request :=
  (expandLine cfg line).bind fun (i, v) =>
    if i.wellFormed && decide (v < 2 ^ 64) then some { cmd := encode i, wdata := BitVec.ofNat 64 v } else none

/-- The value of a digit, in bases up to sixteen. -/
def digitValue (c : Char) : Option Nat :=
  if '0' ≤ c ∧ c ≤ '9' then some (c.toNat - '0'.toNat)
  else if 'a' ≤ c ∧ c ≤ 'f' then some (c.toNat - 'a'.toNat + 10)
  else if 'A' ≤ c ∧ c ≤ 'F' then some (c.toNat - 'A'.toNat + 10)
  else none

/-- The number whose remaining digits are given, `acc` standing for those read. -/
def readDigits (base : Nat) : Nat → List Char → Option Nat
  | acc, [] => some acc
  | acc, c :: cs =>
    match digitValue c with
    | none => none
    | some d => if d < base then readDigits base (acc * base + d) cs else none

/-- At least one digit of the base. -/
def readNumber (base : Nat) (cs : List Char) : Option Nat :=
  if cs.isEmpty then none else readDigits base 0 cs

/-- An unsigned number: decimal, hexadecimal with `0x`, binary with `0b` (R71). -/
def parseNat : List Char → Option Nat
  | '0' :: 'x' :: cs => readNumber 16 cs
  | '0' :: 'b' :: cs => readNumber 2 cs
  | cs => readNumber 10 cs

/-- A signed number (R71). -/
def parseInt : List Char → Option Int
  | '-' :: cs => (parseNat cs).map fun n => -(n : Int)
  | cs => (parseNat cs).map fun n => (n : Int)

/-- The text without spaces at its two ends. -/
def trim (cs : List Char) : List Char :=
  (((cs.dropWhile (· == ' ')).reverse).dropWhile (· == ' ')).reverse

/-- The operands of a line, at its commas. -/
def splitOperands (cs : List Char) : List (List Char) :=
  (cs.foldr (fun c acc => if c == ',' then [] :: acc else (c :: acc.headD []) :: acc.tail) [[]]).map trim

/-- A register operand: `r` and a decimal number, or `REG` and a name (R71, R72). -/
def parseReg : List Char → Option RegOperand
  | 'r' :: cs => (readNumber 10 cs).map .index
  | 'R' :: 'E' :: 'G' :: ' ' :: cs => some (.named (String.ofList (trim cs)))
  | _ => none

/-- A field operand: `f` and a decimal number, and any other text is a name (R71, R72). -/
def parseField : List Char → Option FieldOperand
  | [] => none
  | 'f' :: cs => some (match readNumber 10 cs with
      | some k => .index k
      | none => .named (String.ofList ('f' :: cs)))
  | cs => some (.named (String.ofList cs))

/-- A line of two parts, its mnemonic and its operands (R71, R72). -/
def parseOperands (mnemonic : String) (operands : List (List Char)) : Option AsmLine :=
  match operands with
  | [r] =>
    (parseReg r).bind fun r =>
      if mnemonic == "WIDTH" then some (.width r)
      else if mnemonic == "READ" then some (.read r)
      else none
  | [r, a] =>
    (parseReg r).bind fun r =>
      if mnemonic == "RDBIT" then (parseInt a).map (.rdbit r)
      else if mnemonic == "RDREST" then (parseInt a).map (.rdrest r)
      else if mnemonic == "RDRANGE" then (parseInt a).map (.rdrangeRest r)
      else if mnemonic == "FGET" then (parseField a).map (.fget r)
      else if mnemonic == "SETBIT" then (parseInt a).map (.setbit r)
      else if mnemonic == "CLRBIT" then (parseInt a).map (.clrbit r)
      else if mnemonic == "WRALL" then (parseNat a).map (.wrall r)
      else none
  | [r, a, b] =>
    (parseReg r).bind fun r =>
      if mnemonic == "WRBIT" then (parseInt a).bind fun i => (parseNat b).map (.wrbit r i)
      else if mnemonic == "RDRANGE" then (parseInt a).bind fun i => (parseInt b).map (.rdrange r i)
      else if mnemonic == "FSET" then (parseField a).bind fun f => (parseNat b).map (.fset r f)
      else none
  | [r, a, b, v] =>
    (parseReg r).bind fun r =>
      if mnemonic == "WRRANGE" then
        (parseInt a).bind fun i => (parseInt b).bind fun n => (parseNat v).map (.wrrange r i n)
      else none
  | _ => none

/-- The line a text is: the mnemonic ends at the first space. -/
def parseLine (text : String) : Option AsmLine :=
  let cs := trim text.toList
  parseOperands (String.ofList (cs.takeWhile (· != ' '))) (splitOperands (cs.dropWhile (· != ' ')))

/-- The request a line of text assembles to, against a catalog. -/
def assembleText (cfg : Config) (text : String) : Option Request := (parseLine text).bind (assemble cfg)

end Sys2Proof.Machine
end

