-- ==== Sys2Proof/Safety.lean ====
section
/-! DEFINITION. What a good state and a run are, in the terms the claims use. -/

namespace Sys2Proof.Machine

/-- The invariant of every state the block can reach. -/
structure State.Inv (s : State) : Prop where
  /-- The instance exists: elaboration accepts its configuration (70_reset_and_hazards.md R233). -/
  config : configError s.cfg = none
  /-- One register per catalog entry (10_state.md R20). -/
  length : s.x.length = s.cfg.catalog.length
  /-- `0 <= x[r] <= 2^W_r - 1` (R21). -/
  bounded : ∀ r e, s.entryAt r = some e → s.reg r < 2 ^ e.width
  /-- `RSP_STATUS` and `RSP_RDATA` are 0 while `RSP_VALID = 0` (R230). -/
  quiet : s.rspValid = false → s.rspStatus = 0 ∧ s.rspRdata = 0
  /-- A failed request answers `RDATA = 0` (60_exceptions.md R204). -/
  failed : s.rspStatus ≠ 0 → s.rspRdata = 0
  /-- Code 4 is never on the port (60_exceptions.md R200, 93_implementation_defined.md K3). -/
  reserved : s.rspStatus ≠ Status.code .invalidDefinition

/-- The states of runs: an instance right after its reset (10_state.md R31), with anything presented on its pins, and
what a step leads to. -/
inductive Reachable : State → Prop where
  | start (cfg : Config) (s : State) (port : PortIn) (later : List PortIn)
      (h : instantiate cfg = .ok s) : Reachable { s with port := port, later := later }
  | step (s t : State) (h : Reachable s) (hs : Machine.step s = .next t) : Reachable t

/-- Two states agree but for the register `r`, the response and the pins: what a request that names `r` may change
(R22). -/
def SameElsewhere (r : Nat) (s t : State) : Prop :=
  t.cfg = s.cfg ∧ t.x.length = s.x.length ∧ ∀ q, q ≠ r → t.x[q]? = s.x[q]?

/-- The response pins carry the given status and read data (30_encoding.md R61). -/
def Responds (t : State) (st : Status) (rdata : Nat) : Prop :=
  t.rspValid = true ∧ t.rspStatus = st.code ∧ t.rspRdata.toNat = rdata

/-- A request that writes nothing: everything but the response is as it was (20_memory.md R47, 60_exceptions.md
R203). -/
def NothingWritten (s t : State) : Prop :=
  t.cfg = s.cfg ∧ t.x = s.x ∧ t.port = s.port ∧ t.later = s.later

/-- The errors a request's own rule lists, on an entry and write data, in the order of 60_exceptions.md R202 and with
the exact conditions of R201. -/
def causesIn (e : RegEntry) (v : Nat) : Instr → List Status
  | .width _ => []
  | .read _ => []
  | .rdbit _ bit => if bit < 0 ∨ bit ≥ e.width then [.outOfRange] else []
  | .wrbit _ bit =>
    (if bit < 0 ∨ bit ≥ e.width then [.outOfRange] else []) ++ (if v ≠ 0 ∧ v ≠ 1 then [.invalidBitValue] else [])
  | .rdrange _ start stop => if start < 0 ∨ stop > e.width ∨ stop ≤ start then [.outOfRange] else []
  | .rdrest _ start => if start < 0 ∨ start ≥ e.width then [.outOfRange] else []
  | .wrrange _ start size =>
    (if start < 0 ∨ size ≤ 0 ∨ start + size > e.width then [.outOfRange] else []) ++
      (if v ≥ 2 ^ size.toNat then [.valueTooLarge] else [])
  | .fget _ k =>
    match e.fields[k]? with
    | none => [.unknownFieldName]
    | some f => if f.start + f.size > e.width then [.outOfRange] else []
  | .fset _ k =>
    match e.fields[k]? with
    | none => [.unknownFieldName]
    | some f =>
      (if f.start + f.size > e.width then [.outOfRange] else []) ++
        (if v ≥ 2 ^ f.size.toNat then [.valueTooLarge] else [])

/-- Every error that applies to a decoded request, in the order of R202. -/
def causes (i : Instr) (s : State) : List Status :=
  match s.entryAt i.reg with
  | none => [.unknownRegisterName]
  | some e => causesIn e s.wdata i

/-- The pins and what they carry later are as they were. -/
def SamePins (s t : State) : Prop := t.port = s.port ∧ t.later = s.later

end Sys2Proof.Machine
end

