-- ==== Sys2Proof/Certificates/Slice0/Obligations.lean ====
section
/-! DEFINITION. The statements for the provers. Each docstring names the rule of spec/ it formalises. -/

open Sys2Proof Sys2Proof.Machine

/-! Encoding. -/

/-- Words of 95_test_vectors.md decode as listed there: those of section 2.1, and for RDBIT, of which section 2.1 has no
legal word, vector T5 of section 2.4. -/
def Obligations.DecodesListedWords : Prop :=
  decode 0x00000001 = .ok (.width 0) ∧ decode 0x02000002 = .ok (.read 2) ∧
  decode 0x00008003 = .ok (.rdbit 0 (-128)) ∧
  decode 0x0000FF04 = .ok (.wrbit 0 (-1)) ∧ decode 0x000C0605 = .ok (.rdrange 0 6 12) ∧
  decode 0x00001015 = .ok (.rdrest 0 16) ∧ decode 0x00060606 = .ok (.wrrange 0 6 6) ∧
  decode 0x00000207 = .ok (.fget 0 2) ∧ decode 0x00000108 = .ok (.fset 0 1) ∧
  decode 0x00800005 = .ok (.rdrange 0 0 (-128)) ∧ decode 0x0000FF07 = .ok (.fget 0 255) ∧
  (∃ e, decode 0x00000009 = .error e) ∧ (∃ e, decode 0x00000014 = .error e)

/-- Decoding an encoded well-formed request gives it back, with every operand at every value its field admits. -/
def Obligations.DecodeOfEncode : Prop := ∀ i : Instr, i.wellFormed = true → decode (encode i) = .ok i

/-- A word that decodes to a request is that request's one encoding, and the request is well formed. -/
def Obligations.EncodeOfDecode : Prop :=
  ∀ (w : Cmd) (i : Instr), decode w = .ok i → i.wellFormed = true ∧ encode i = w

/-- R67: a word encodes a mnemonic exactly when it matches the mnemonic's row, at most one row matches, and `R` is
free in every row. -/
def Obligations.DecodeAgreesWithMatchAndMask : Prop :=
  opTable.map (fun row => (row.mnemonic, row.value, row.mask)) =
    [("WIDTH", 0x00000001, 0x00FFFFFF), ("READ", 0x00000002, 0x00FFFFFF), ("RDBIT", 0x00000003, 0x00FF00FF),
     ("WRBIT", 0x00000004, 0x00FF00FF), ("RDRANGE", 0x00000005, 0x000000FF), ("RDREST", 0x00000015, 0x00FF00FF),
     ("WRRANGE", 0x00000006, 0x000000FF), ("FGET", 0x00000007, 0x00FF00FF), ("FSET", 0x00000008, 0x00FF00FF)] ∧
  (∀ (w : Cmd) (row : OpRow), row ∈ opTable →
    (w &&& row.mask = row.value ↔ ∃ i, decode w = .ok i ∧ i.mnemonic = row.mnemonic)) ∧
  (∀ (w : Cmd) (row row' : OpRow), row ∈ opTable → row' ∈ opTable →
    w &&& row.mask = row.value → w &&& row'.mask = row'.value → row = row') ∧
  ∀ row ∈ opTable, row.mask &&& 0xFF000000 = 0

/-- R69: the illegal words are exactly the four lines of the rule, and the block answers each with IllegalCommand,
`RDATA = 0` and no state written. -/
def Obligations.IllegalWordsExactly : Prop :=
  (∀ w : Cmd, (∃ e, decode w = .error e) ↔
    (fieldOP w = 0 ∨ 9 ≤ (fieldOP w).toNat) ∨ fieldZ w ≠ 0 ∨ (fieldD w = 1 ∧ fieldOP w ≠ 5) ∨
    ((fieldOP w = 1 ∨ fieldOP w = 2) ∧ (fieldA w ≠ 0 ∨ fieldB w ≠ 0)) ∨
    ((fieldOP w = 3 ∨ fieldOP w = 4 ∨ fieldOP w = 7 ∨ fieldOP w = 8) ∧ fieldB w ≠ 0) ∨
    (fieldOP w = 5 ∧ fieldD w = 1 ∧ fieldB w ≠ 0)) ∧
  ∀ (s : State) (e : Illegal), configError s.cfg = none → s.port.rst = false → s.port.reqValid = true →
    decode s.port.cmd = .error e →
    ∃ t, step s = .next t ∧ Responds t .illegalCommand 0 ∧ t.rspStatus = 7 ∧ t.x = s.x ∧ t.cfg = s.cfg

/-- R43: a word as bytes is little-endian, byte `j` being `w[8j+7:8j]`, and the decoder reads a stream so written. -/
def Obligations.BytesAreLittleEndian : Prop :=
  (∀ (w : Cmd) (j : Nat) (b : Byte), (cmdBytes w)[j]? = some b → b.toNat = bits w.toNat (8 * j + 7) (8 * j)) ∧
  (∀ (w : Data) (j : Nat) (b : Byte), (dataBytes w)[j]? = some b → b.toNat = bits w.toNat (8 * j + 7) (8 * j)) ∧
  (∀ (w : Cmd) (i : Instr) (rest : List Byte), decode w = .ok i →
    decodeBytes (cmdBytes w ++ rest) = some (i, rest)) ∧
  (∀ (w : Cmd) (e : Illegal) (rest : List Byte), decode w = .error e → decodeBytes (cmdBytes w ++ rest) = none) ∧
  (∀ w : Cmd, (cmdBytes w).length = 4) ∧ ∀ w : Data, (dataBytes w).length = 8

/-! The edge and the step. -/

/-- A step with a request on the pins runs the decoded request, and then the pins carry their next values. -/
def Obligations.StepRunsDecodedRequest : Prop :=
  ∀ (s : State) (i : Instr), configError s.cfg = none → s.port.rst = false → s.port.reqValid = true →
    decode s.port.cmd = .ok i →
    step s = onNext State.advance (exec i s) ∧ i.wellFormed = true

/-- Requests presented back to back run one after another in the order they are accepted, each on the state the one
before it left (R48, R235). One whose word is illegal answers IllegalCommand and changes nothing, and the next request
is run normally on the state so left (R69, R204). The idle pins after the last one are the model's choice (log 4). -/
def Obligations.RequestsRunInAcceptanceOrder : Prop :=
  (∀ (s t : State) (q : Request) (qs : List Request) (i : Instr), configError s.cfg = none → decode q.cmd = .ok i →
    exec i (s.withRequests (q :: qs)) = .next t → step (s.withRequests (q :: qs)) = .next (t.withRequests qs)) ∧
  ∀ (s : State) (q : Request) (qs : List Request) (e : Illegal), configError s.cfg = none →
    decode q.cmd = .error e →
    step (s.withRequests (q :: qs)) = .next ((s.raise .illegalCommand).withRequests qs)

/-- R231: at an edge with `rst = 1` every register takes its reset value, no response follows, and the request on the
pins has no effect. -/
def Obligations.ResetEdgeOverridesRequest : Prop :=
  ∀ s : State, configError s.cfg = none → s.port.rst = true →
    ∃ t, step s = .next t ∧ t.cfg = s.cfg ∧ t.x.length = s.cfg.catalog.length ∧
      (∀ r e, s.entryAt r = some e → t.reg r = e.init.toNat % 2 ^ e.width) ∧
      t.rspValid = false ∧ t.rspStatus = 0 ∧ t.rspRdata = 0 ∧
      ∀ p : PortIn, step { s with port := { p with rst := true } } = step s

/-- R234: at an edge without a request nothing is accepted, the registers stay, and `RSP_VALID = 0` follows. -/
def Obligations.IdleEdgeKeepsRegisters : Prop :=
  ∀ s : State, configError s.cfg = none → s.port.rst = false → s.port.reqValid = false →
    ∃ t, step s = .next t ∧ t.cfg = s.cfg ∧ t.x = s.x ∧ t.rspValid = false ∧ t.rspStatus = 0 ∧ t.rspRdata = 0

/-- R236: every edge of an instance completes in one step; no step faults, and the only refusal is of a configuration
that elaboration refuses. -/
def Obligations.EveryEdgeCompletes : Prop :=
  (∀ s : State, configError s.cfg = none → ∃ t, step s = .next t) ∧
  (∀ (s : State) (f : Fault), step s ≠ .fault f) ∧
  ∀ (s : State) (e : ConfigError), configError s.cfg = some e → step s = .refused (.invalidConfiguration e)

/-- R26, R20: no step changes the configuration or the number of registers. -/
def Obligations.StepKeepsConfiguration : Prop :=
  ∀ s t : State, configError s.cfg = none → step s = .next t →
    t.cfg = s.cfg ∧ (s.x.length = s.cfg.catalog.length → t.x.length = s.x.length)

/-! The requests: where each completes, with what result, and what it leaves alone. -/

/-- R101. -/
def Obligations.WidthAnswersWidth : Prop :=
  ∀ (s : State) (r : Nat) (e : RegEntry), configError s.cfg = none → s.entryAt r = some e →
    ∃ t, exec (.width r) s = .next t ∧ Responds t .ok e.width ∧ 1 ≤ e.width ∧ e.width ≤ 64 ∧ NothingWritten s t

/-- R102, with the value directly after reset. -/
def Obligations.ReadAnswersWholeValue : Prop :=
  (∀ (s : State) (r : Nat) (e : RegEntry), s.Inv → s.entryAt r = some e →
    ∃ t, exec (.read r) s = .next t ∧ Responds t .ok (s.reg r) ∧ s.reg r < 2 ^ e.width ∧ NothingWritten s t) ∧
  ∀ (cfg : Config) (s : State) (r : Nat) (e : RegEntry), instantiate cfg = .ok s → cfg.catalog[r]? = some e →
    ∃ t, exec (.read r) s = .next t ∧ Responds t .ok (e.init.toNat % 2 ^ e.width)

/-- R105: the bit, or OutOfRange; and the equality with the one-bit range read. -/
def Obligations.RdbitAnswersBit : Prop :=
  ∀ (s : State) (r : Nat) (bit : Int) (e : RegEntry), configError s.cfg = none → s.entryAt r = some e →
    (0 ≤ bit ∧ bit < e.width →
      (∃ t, exec (.rdbit r bit) s = .next t ∧ Responds t .ok (if (s.reg r).testBit bit.toNat then 1 else 0) ∧
        NothingWritten s t) ∧
      exec (.rdbit r bit) s = exec (.rdrange r bit (bit + 1)) s) ∧
    (bit < 0 ∨ bit ≥ e.width → exec (.rdbit r bit) s = .next (s.raise .outOfRange))

/-- R103: exactly one bit takes the value; any other value and any bit outside are refused. -/
def Obligations.WrbitWritesOneBit : Prop :=
  ∀ (s : State) (r : Nat) (bit : Int) (e : RegEntry), s.x.length = s.cfg.catalog.length → s.entryAt r = some e →
    (0 ≤ bit ∧ bit < e.width ∧ (s.wdata = 0 ∨ s.wdata = 1) →
      ∃ t, exec (.wrbit r bit) s = .next t ∧ Responds t .ok 0 ∧ SameElsewhere r s t ∧ SamePins s t ∧
        ∀ j, (t.reg r).testBit j = if j = bit.toNat then decide (s.wdata = 1) else (s.reg r).testBit j) ∧
    (bit < 0 ∨ bit ≥ e.width → exec (.wrbit r bit) s = .next (s.raise .outOfRange)) ∧
    (0 ≤ bit ∧ bit < e.width ∧ 2 ≤ s.wdata → exec (.wrbit r bit) s = .next (s.raise .invalidBitValue))

/-- R106: bit `j` of the answer is bit `start + j` of the register, for the `stop - start` bits of the range, and zero
above. -/
def Obligations.RdrangeAnswersRange : Prop :=
  ∀ (s : State) (r : Nat) (start stop : Int) (e : RegEntry), configError s.cfg = none → s.entryAt r = some e →
    (0 ≤ start ∧ stop ≤ e.width ∧ start < stop →
      ∃ t, exec (.rdrange r start stop) s = .next t ∧ t.rspValid = true ∧ t.rspStatus = 0 ∧ NothingWritten s t ∧
        ∀ j, t.rspRdata.getLsbD j = (decide (j < (stop - start).toNat) && (s.reg r).testBit (start.toNat + j))) ∧
    (start < 0 ∨ stop > e.width ∨ stop ≤ start →
      exec (.rdrange r start stop) s = .next (s.raise .outOfRange))

/-- R107: the bits from `start` to the top; OutOfRange exactly when `start < 0` or `start >= W`. -/
def Obligations.RdrestAnswersRest : Prop :=
  ∀ (s : State) (r : Nat) (start : Int) (e : RegEntry), configError s.cfg = none → s.entryAt r = some e →
    (0 ≤ start ∧ start < e.width →
      ∃ t, exec (.rdrest r start) s = .next t ∧ t.rspValid = true ∧ t.rspStatus = 0 ∧ NothingWritten s t ∧
        ∀ j, t.rspRdata.getLsbD j =
          (decide (j < e.width - start.toNat) && (s.reg r).testBit (start.toNat + j))) ∧
    (start < 0 ∨ start ≥ e.width → exec (.rdrest r start) s = .next (s.raise .outOfRange))

/-- R108: exactly the addressed bits are replaced; OutOfRange and ValueTooLarge in the rule's order. -/
def Obligations.WrrangeReplacesRange : Prop :=
  ∀ (s : State) (r : Nat) (start size : Int) (e : RegEntry), s.x.length = s.cfg.catalog.length →
    s.entryAt r = some e →
    (0 ≤ start ∧ 0 < size ∧ start + size ≤ e.width ∧ s.wdata < 2 ^ size.toNat →
      ∃ t, exec (.wrrange r start size) s = .next t ∧ Responds t .ok 0 ∧ SameElsewhere r s t ∧ SamePins s t ∧
        ∀ j, (t.reg r).testBit j =
          if start.toNat ≤ j ∧ j < (start + size).toNat then s.wdata.testBit (j - start.toNat)
          else (s.reg r).testBit j) ∧
    (start < 0 ∨ size ≤ 0 ∨ start + size > e.width →
      exec (.wrrange r start size) s = .next (s.raise .outOfRange)) ∧
    (0 ≤ start ∧ 0 < size ∧ start + size ≤ e.width ∧ 2 ^ size.toNat ≤ s.wdata →
      exec (.wrrange r start size) s = .next (s.raise .valueTooLarge))

/-- R151: the field's bits; UnknownFieldName and OutOfRange in the rule's order. -/
def Obligations.FgetAnswersField : Prop :=
  ∀ (s : State) (r k : Nat) (e : RegEntry), configError s.cfg = none → s.entryAt r = some e →
    (∀ f, e.fields[k]? = some f → f.start + f.size ≤ e.width →
      ∃ t, exec (.fget r k) s = .next t ∧ t.rspValid = true ∧ t.rspStatus = 0 ∧ NothingWritten s t ∧
        ∀ j, t.rspRdata.getLsbD j = (decide (j < f.size.toNat) && (s.reg r).testBit (f.start.toNat + j))) ∧
    (e.fields.length ≤ k → exec (.fget r k) s = .next (s.raise .unknownFieldName)) ∧
    (∀ f, e.fields[k]? = some f → f.start + f.size > e.width → exec (.fget r k) s = .next (s.raise .outOfRange))

/-- R152: exactly the field's bits are replaced; UnknownFieldName, OutOfRange and ValueTooLarge in the rule's order. -/
def Obligations.FsetReplacesField : Prop :=
  ∀ (s : State) (r k : Nat) (e : RegEntry), configError s.cfg = none → s.x.length = s.cfg.catalog.length →
    s.entryAt r = some e →
    (∀ f, e.fields[k]? = some f → f.start + f.size ≤ e.width → s.wdata < 2 ^ f.size.toNat →
      ∃ t, exec (.fset r k) s = .next t ∧ Responds t .ok 0 ∧ SameElsewhere r s t ∧ SamePins s t ∧
        ∀ j, (t.reg r).testBit j =
          if f.start.toNat ≤ j ∧ j < (f.start + f.size).toNat then s.wdata.testBit (j - f.start.toNat)
          else (s.reg r).testBit j) ∧
    (e.fields.length ≤ k → exec (.fset r k) s = .next (s.raise .unknownFieldName)) ∧
    (∀ f, e.fields[k]? = some f → f.start + f.size > e.width →
      exec (.fset r k) s = .next (s.raise .outOfRange)) ∧
    (∀ f, e.fields[k]? = some f → f.start + f.size ≤ e.width → 2 ^ f.size.toNat ≤ s.wdata →
      exec (.fset r k) s = .next (s.raise .valueTooLarge))

/-! Errors. -/

/-- R204: an error is its code with `RDATA = 0`, and nothing else of the state changes. -/
def Obligations.ErrorEntryLeavesState : Prop :=
  ∀ (s : State) (st : Status), Responds (s.raise st) st 0 ∧ NothingWritten s (s.raise st)

/-- R200: the codes, and no two statuses share one. -/
def Obligations.StatusCodesAsListed : Prop :=
  Status.code .ok = 0 ∧ Status.code .outOfRange = 1 ∧ Status.code .invalidBitValue = 2 ∧
  Status.code .valueTooLarge = 3 ∧ Status.code .invalidDefinition = 4 ∧ Status.code .unknownRegisterName = 5 ∧
  Status.code .unknownFieldName = 6 ∧ Status.code .illegalCommand = 7 ∧
  ∀ a b : Status, a.code = b.code → a = b

/-- R100, R40: every request fails with UnknownRegisterName exactly where its index names no catalog entry. -/
def Obligations.UnknownRegisterIndex : Prop :=
  ∀ (i : Instr) (s : State),
    (s.cfg.catalog.length ≤ i.reg → exec i s = .next (s.raise .unknownRegisterName)) ∧
    (i.reg < s.cfg.catalog.length → ∃ t, exec i s = .next t ∧ t.rspStatus ≠ Status.code .unknownRegisterName)

/-- R202: exactly one status is reported, the first applicable one in the rule's order; an illegal word comes before
all others. -/
def Obligations.ErrorPriority : Prop :=
  (∀ (i : Instr) (s : State), ∃ t, exec i s = .next t ∧ t.rspStatus = ((causes i s).headD .ok).code) ∧
  ∀ (s t : State), configError s.cfg = none → s.port.rst = false → s.port.reqValid = true → step s = .next t →
    t.rspStatus = (match decode s.port.cmd with
      | .error _ => Status.illegalCommand
      | .ok i => (causes i s).headD .ok).code

/-- R203: a request that ends in an error writes no register and leaves the whole state as it was. -/
def Obligations.FailedRequestChangesNothing : Prop :=
  (∀ (i : Instr) (s t : State), exec i s = .next t → t.rspStatus ≠ 0 → t.rspRdata = 0 ∧ NothingWritten s t) ∧
  ∀ s t : State, step s = .next t → t.rspStatus ≠ 0 → t.rspRdata = 0 ∧ t.x = s.x ∧ t.cfg = s.cfg

/-- 93_implementation_defined.md K3: no step ever answers status code 4. -/
def Obligations.ReservedStatusNeverAnswered : Prop :=
  ∀ s t : State, step s = .next t → t.rspStatus ≠ 4

/-! Laws over all requests. -/

/-- R47: reads write nothing, and repeating a request changes nothing and answers the same, whatever happened between
that wrote no register. -/
def Obligations.RepeatingRequestIsIdempotent : Prop :=
  (∀ (i : Instr) (s t : State), i.writes = false → exec i s = .next t → NothingWritten s t) ∧
  ∀ (i : Instr) (s t u : State), exec i s = .next t → u.cfg = t.cfg → u.x = t.x → u.port.wdata = t.port.wdata →
    ∃ v, exec i u = .next v ∧ v.x = t.x ∧ v.cfg = t.cfg ∧ v.rspValid = t.rspValid ∧ v.rspStatus = t.rspStatus ∧
      v.rspRdata = t.rspRdata

/-- R22: a request names one register, reads only it and writes only it. What it answers and what it leaves in that
register depend on that register, the configuration and the operands alone. -/
def Obligations.RequestsTouchOneRegister : Prop :=
  (∀ (i : Instr) (s t : State), exec i s = .next t → SameElsewhere i.reg s t ∧ SamePins s t) ∧
  ∀ (i : Instr) (s s' t t' : State), s'.cfg = s.cfg → s'.port.wdata = s.port.wdata → s'.x[i.reg]? = s.x[i.reg]? →
    exec i s = .next t → exec i s' = .next t' →
    t'.x[i.reg]? = t.x[i.reg]? ∧ t'.rspValid = t.rspValid ∧ t'.rspStatus = t.rspStatus ∧ t'.rspRdata = t.rspRdata

/-- R104: the single-bit laws, over two steps of the machine. -/
def Obligations.SingleBitLaws : Prop :=
  ∀ (s : State) (r i : Nat) (e : RegEntry) (b : Bool), s.Inv → s.entryAt r = some e → i < e.width →
    ∃ t u, step (s.withRequests [⟨encode (.wrbit r i), if b then 1 else 0⟩, ⟨encode (.rdbit r i), 0⟩]) = .next t ∧
      step t = .next u ∧ Responds t .ok 0 ∧ Responds u .ok (if b then 1 else 0) ∧ u.x = t.x ∧
      clearMask (t.reg r) (1 <<< i) = clearMask (s.reg r) (1 <<< i)

/-- R109: a range written reads back over two steps of the machine, and the bits outside it are unchanged. -/
def Obligations.RangeWriteReadsBack : Prop :=
  ∀ (s : State) (r start size : Nat) (v : Data) (e : RegEntry), s.Inv → s.entryAt r = some e →
    1 ≤ size → start + size ≤ e.width → v.toNat < 2 ^ size →
    ∃ t u, step (s.withRequests [⟨encode (.wrrange r start size), v⟩,
        ⟨encode (.rdrange r start ((start : Int) + size)), 0⟩]) = .next t ∧
      step t = .next u ∧ Responds t .ok 0 ∧ Responds u .ok v.toNat ∧ u.x = t.x ∧
      clearMask (t.reg r) (fieldmask start size) = clearMask (s.reg r) (fieldmask start size)

/-- R109, boundary: a range that starts at the width always fails with OutOfRange, and one that ends at the width
succeeds where its other checks pass. -/
def Obligations.RangeBoundaries : Prop :=
  ∀ (s : State) (r : Nat) (e : RegEntry), s.entryAt r = some e →
    (∀ stop : Int, exec (.rdrange r e.width stop) s = .next (s.raise .outOfRange)) ∧
    exec (.rdrest r e.width) s = .next (s.raise .outOfRange) ∧
    (∀ size : Int, exec (.wrrange r e.width size) s = .next (s.raise .outOfRange)) ∧
    (∀ start : Int, 0 ≤ start → start < e.width →
      (∃ t, exec (.rdrange r start e.width) s = .next t ∧ t.rspStatus = 0) ∧
      (∃ t, exec (.rdrest r start) s = .next t ∧ t.rspStatus = 0) ∧
      (s.wdata ≤ ones (e.width - start.toNat) →
        ∃ t, exec (.wrrange r start (e.width - start)) s = .next t ∧ t.rspStatus = 0))

/-- R153: a field request is the range request with the field's start and size. -/
def Obligations.FieldRequestIsRangeRequest : Prop :=
  ∀ (s : State) (r k : Nat) (e : RegEntry) (f : FieldEntry), configError s.cfg = none → s.entryAt r = some e →
    e.fields[k]? = some f →
    exec (.fget r k) s = exec (.rdrange r f.start (f.start + f.size)) s ∧
    exec (.fset r k) s = exec (.wrrange r f.start f.size) s

/-- R154: after a successful write of one field, any other field of the register reads the bits of the new value. -/
def Obligations.OverlappingFieldsAreViews : Prop :=
  ∀ (s t : State) (r k1 k2 : Nat) (e : RegEntry) (f1 f2 : FieldEntry), configError s.cfg = none →
    s.x.length = s.cfg.catalog.length → s.entryAt r = some e → e.fields[k1]? = some f1 → e.fields[k2]? = some f2 →
    f2.start + f2.size ≤ e.width → exec (.fset r k1) s = .next t → t.rspStatus = 0 →
    ∃ u, exec (.fget r k2) t = .next u ∧ u.rspStatus = 0 ∧ u.x = t.x ∧
      ∀ j, u.rspRdata.getLsbD j = (decide (j < f2.size.toNat) &&
        (if f1.start.toNat ≤ f2.start.toNat + j ∧ f2.start.toNat + j < (f1.start + f1.size).toNat
         then s.wdata.testBit (f2.start.toNat + j - f1.start.toNat)
         else (s.reg r).testBit (f2.start.toNat + j)))

/-- R11, R12: clearing a mask is the integer formula `v & ~m` with `~m = -m - 1`; `ones`, `fieldmask` and the slice
are the formulas of R12. -/
def Obligations.MaskFormulas : Prop :=
  (∀ v m : Nat, ((clearMask v m : Nat) : Int) = Int.land (v : Int) (-(m : Int) - 1)) ∧
  (∀ n : Nat, ones n = 2 ^ n - 1) ∧ (∀ start size : Nat, fieldmask start size = (2 ^ size - 1) * 2 ^ start) ∧
  ∀ v hi lo : Nat, lo ≤ hi → bits v hi lo = v / 2 ^ lo % 2 ^ (hi - lo + 1)

/-! Reset, elaboration, invariants. -/

/-- Every step keeps the invariant: the configuration is valid, every register fits its width (R21), the response pins
are zero while no response stands (R230), a failed request answers zero, and code 4 never appears. -/
def Obligations.StepKeepsInvariant : Prop := ∀ s t : State, s.Inv → step s = .next t → t.Inv

/-- The invariant holds right after the reset of every accepted configuration, whatever the pins carry and will carry;
so it does at the reset state of the model's own configuration (log 2). -/
def Obligations.ResetMeetsInvariant : Prop :=
  (∀ (cfg : Config) (s : State) (port : PortIn) (later : List PortIn), instantiate cfg = .ok s →
    ({ s with port := port, later := later } : State).Inv) ∧
  State.reset.Inv

/-- R21: in every state the block can reach, under every valid configuration and whatever the pins carry, every
register is within its width. -/
def Obligations.ReachableRegistersFitWidth : Prop :=
  ∀ s : State, Reachable s → s.x.length = s.cfg.catalog.length ∧
    ∀ r e, s.entryAt r = some e → s.reg r ≤ 2 ^ e.width - 1

/-- R30: after reset every register holds its initial value masked to its width; `init` defaults to 0. -/
def Obligations.InstanceStartsAtResetValues : Prop :=
  (∀ (cfg : Config) (s : State), instantiate cfg = .ok s → s.cfg = cfg ∧ s.x.length = cfg.catalog.length ∧
    ∀ r e, cfg.catalog[r]? = some e → 0 ≤ e.init ∧ s.reg r = e.init.toNat &&& ones e.width) ∧
  ∀ name width fields, ({ name := name, width := width, fields := fields } : RegEntry).init = 0

/-- The model's choice of configuration at reset, CAT_EX (log 2), and its reset values (95_test_vectors.md Z1). -/
def Obligations.ResetOfTestCatalog : Prop :=
  State.reset.x = [0, 1, 0xFFFFFFFFFFFFFFFF] ∧ instantiate .catEx = .ok State.reset ∧ State.reset.rspValid = false

/-- R233: the checks of a configuration and their order; the first failing one refuses it. -/
def Obligations.ElaborationChecksInOrder : Prop :=
  (∀ cfg : Config, configError cfg = none ↔
    (1 ≤ cfg.catalog.length ∧ cfg.catalog.length ≤ 256) ∧ ∀ e ∈ cfg.catalog,
      e.name ∈ cfg.allowedNames ∧ (1 ≤ e.width ∧ e.width ≤ 64) ∧ 0 ≤ e.init ∧ e.fields.length ≤ 256 ∧
      ∀ f ∈ e.fields, 0 ≤ f.start ∧ 1 ≤ f.size) ∧
  (∀ cfg : Config, configError cfg = some .badCount ↔ cfg.catalog.length < 1 ∨ 256 < cfg.catalog.length) ∧
  (∀ (cfg : Config) (err : ConfigError), err ≠ .badCount →
    (configError cfg = some err ↔ (1 ≤ cfg.catalog.length ∧ cfg.catalog.length ≤ 256) ∧
      ∃ r e, cfg.catalog[r]? = some e ∧ checkEntry cfg.allowedNames r e = some err ∧
        ∀ q e', q < r → cfg.catalog[q]? = some e' → checkEntry cfg.allowedNames q e' = none)) ∧
  (∀ (allowed : List String) (r : Nat) (e : RegEntry),
    (checkEntry allowed r e = some (.unknownRegisterName r) ↔ e.name ∉ allowed) ∧
    (checkEntry allowed r e = some (.badWidth r) ↔ e.name ∈ allowed ∧ (e.width < 1 ∨ 64 < e.width)) ∧
    (checkEntry allowed r e = some (.badInit r) ↔
      e.name ∈ allowed ∧ (1 ≤ e.width ∧ e.width ≤ 64) ∧ e.init < 0) ∧
    (checkEntry allowed r e = some (.tooManyFields r) ↔
      e.name ∈ allowed ∧ (1 ≤ e.width ∧ e.width ≤ 64) ∧ 0 ≤ e.init ∧ 256 < e.fields.length) ∧
    (∀ k, checkEntry allowed r e = some (.invalidDefinition r k) ↔
      e.name ∈ allowed ∧ (1 ≤ e.width ∧ e.width ≤ 64) ∧ 0 ≤ e.init ∧ e.fields.length ≤ 256 ∧
      (∃ f, e.fields[k]? = some f ∧ (f.start < 0 ∨ f.size < 1)) ∧
      ∀ j f, j < k → e.fields[j]? = some f → 0 ≤ f.start ∧ 1 ≤ f.size)) ∧
  ∀ (cfg : Config) (err : ConfigError), instantiate cfg = .error err ↔ configError cfg = some err

/-- R210: what the two construction-time errors of the source say of the configuration they refuse. -/
def Obligations.ConfigurationErrorKinds : Prop :=
  (∀ (cfg : Config) (err : ConfigError), configError cfg = some err →
    configErrorStatus err = some .unknownRegisterName →
    ∃ e ∈ cfg.catalog, e.name ∉ cfg.allowedNames) ∧
  (∀ (cfg : Config) (err : ConfigError), configError cfg = some err →
    configErrorStatus err = some .invalidDefinition →
    ∃ e ∈ cfg.catalog, ∃ f ∈ e.fields, f.start < 0 ∨ f.size < 1) ∧
  ∀ cfg : Config, 1 ≤ cfg.catalog.length → cfg.catalog.length ≤ 256 →
    ((∃ e ∈ cfg.catalog, e.name ∉ cfg.allowedNames) ∨
      ∃ e ∈ cfg.catalog, ∃ f ∈ e.fields, f.start < 0 ∨ f.size < 1) →
    ∃ err, instantiate cfg = .error err

/-! The arbiter and the assembler. -/

/-- The arbiter serves each requester's requests in the order that requester presents them. R48 and D25 leave the order
open; an arbiter as a list of requester numbers over one queue for each requester, which reorders no queue, is the
model's choice (log 11). -/
def Obligations.ArbiterKeepsEachOrder : Prop :=
  ∀ (order : List Nat) (queues : List (List Request)) (n : Nat),
    ((arbitrate order queues).filter (fun p => p.1 == n)).map (·.2) <+: queues.getD n []

/-- Every interleaving of the requesters' requests, over which D25 quantifies, is the run of some order. The order as a
list of requester numbers over one queue for each requester is the model's choice (log 11). -/
def Obligations.ArbiterReachesEveryInterleaving : Prop :=
  ∀ (run : List (Nat × Request)) (queues : List (List Request)),
    (∀ n, (run.filter (fun p => p.1 == n)).map (·.2) = queues.getD n []) →
    arbitrate (run.map (·.1)) queues = run

/-- R71, R72: each line stands for the request listed, with `WDATA` 0 for the forms that do not write: the nine plain
forms, the pseudo-instructions, and the fields by name, `K` being the first index that carries the name. A name that
nothing carries is an assembly error (for a register name the spec does not say so: log 12). -/
def Obligations.PseudoInstructionsExpand : Prop :=
  (∀ (cfg : Config) (n : Nat), resolveReg cfg (.index n) = some n) ∧
  (∀ (cfg : Config) (r : RegOperand) (n : Nat), resolveReg cfg r = some n →
    expandLine cfg (.width r) = some (.width n, 0) ∧ expandLine cfg (.read r) = some (.read n, 0) ∧
    ∀ (a b : Int) (k v : Nat),
      expandLine cfg (.rdbit r a) = some (.rdbit n a, 0) ∧ expandLine cfg (.wrbit r a v) = some (.wrbit n a, v) ∧
      expandLine cfg (.rdrange r a b) = some (.rdrange n a b, 0) ∧
      expandLine cfg (.rdrest r a) = some (.rdrest n a, 0) ∧
      expandLine cfg (.wrrange r a b v) = some (.wrrange n a b, v) ∧
      expandLine cfg (.fget r (.index k)) = some (.fget n k, 0) ∧
      expandLine cfg (.fset r (.index k) v) = some (.fset n k, v) ∧
      expandLine cfg (.setbit r a) = some (.wrbit n a, 1) ∧ expandLine cfg (.clrbit r a) = some (.wrbit n a, 0) ∧
      expandLine cfg (.rdrangeRest r a) = some (.rdrest n a, 0)) ∧
  (∀ (cfg : Config) (r : RegOperand) (n : Nat) (e : RegEntry), resolveReg cfg r = some n →
    cfg.catalog[n]? = some e → ∀ v : Nat,
    expandLine cfg (.wrall r v) = some (.wrrange n 0 e.width, v) ∧
    (∀ (name : String) (k : Nat), (∃ f, e.fields[k]? = some f ∧ f.name = name) →
      (∀ q f, q < k → e.fields[q]? = some f → f.name ≠ name) →
      expandLine cfg (.fget r (.named name)) = some (.fget n k, 0) ∧
      expandLine cfg (.fset r (.named name) v) = some (.fset n k, v)) ∧
    ∀ name : String, (∀ f ∈ e.fields, f.name ≠ name) →
      expandLine cfg (.fget r (.named name)) = none ∧ expandLine cfg (.fset r (.named name) v) = none) ∧
  ∀ (cfg : Config) (name : String), (∀ e ∈ cfg.catalog, e.name ≠ name) → resolveReg cfg (.named name) = none

/-- Lines of the syntax of R71 and R72, one for each form, assemble to the `CMD` and `WDATA` that 95_test_vectors.md
gives them (or that R62 and R66 give their request); the spelling R71 leaves open is the model's choice (log 12). -/
def Obligations.ListedLinesAssemble : Prop :=
  assembleText .catEx "WIDTH r1" = some ⟨0x01000001, 0⟩ ∧ assembleText .catEx "READ r0" = some ⟨0x00000002, 0⟩ ∧
  assembleText .catEx "RDBIT r0, -128" = some ⟨0x00008003, 0⟩ ∧
  assembleText .catEx "WRBIT r0, 3, 1" = some ⟨0x00000304, 1⟩ ∧
  assembleText .catEx "RDRANGE r0, 6, 12" = some ⟨0x000C0605, 0⟩ ∧
  assembleText .catEx "RDREST r0, 16" = some ⟨0x00001015, 0⟩ ∧
  assembleText .catEx "WRRANGE r0, 6, 6, 0b1111" = some ⟨0x00060606, 0xF⟩ ∧
  assembleText .catEx "FGET r0, f2" = some ⟨0x00000207, 0⟩ ∧
  assembleText .catEx "FSET r0, f1, 0xAB" = some ⟨0x00000108, 0xAB⟩ ∧
  assembleText .catEx "SETBIT r1, 0" = some ⟨0x01000004, 1⟩ ∧
  assembleText .catEx "CLRBIT r2, 63" = some ⟨0x02003F04, 0⟩ ∧
  assembleText .catEx "RDRANGE r0, 16" = some ⟨0x00001015, 0⟩ ∧
  assembleText .catEx "WRALL r0, 0" = some ⟨0x00200006, 0⟩ ∧
  assembleText .catEx "FGET r0, overhang" = some ⟨0x00000307, 0⟩ ∧
  assembleText .catEx "FSET r0, byte1, 0x12" = some ⟨0x00000108, 0x12⟩ ∧
  assembleText .catEx "READ REG WIDE" = some ⟨0x02000002, 0⟩

/-- A field name stands for the first index that carries it (R72, R155). A register name stands for the entry of that
name (R72); that it is the first one where several entries share the name is the model's choice (log 16). -/
def Obligations.NamesResolveToFirstIndex : Prop :=
  (∀ (cfg : Config) (name : String) (n : Nat), resolveReg cfg (.named name) = some n ↔
    (∃ e, cfg.catalog[n]? = some e ∧ e.name = name) ∧ ∀ q e, q < n → cfg.catalog[q]? = some e → e.name ≠ name) ∧
  ∀ (cfg : Config) (r k : Nat) (e : RegEntry) (name : String), cfg.catalog[r]? = some e →
    (resolveField cfg r (.named name) = some k ↔
      (∃ f, e.fields[k]? = some f ∧ f.name = name) ∧ ∀ q f, q < k → e.fields[q]? = some f → f.name ≠ name)

/-- R71, R72: what a line assembles to decodes to the request it stands for, with its value as write data. -/
def Obligations.AssembledLineDecodes : Prop :=
  ∀ (cfg : Config) (line : AsmLine) (q : Request), assemble cfg line = some q →
    ∃ i v, expandLine cfg line = some (i, v) ∧ i.wellFormed = true ∧ decode q.cmd = .ok i ∧ q.wdata.toNat = v

/-- R72: WRALL assembles for every register of a valid catalog and sets the whole register. -/
def Obligations.WrallSetsWholeRegister : Prop :=
  ∀ (s : State) (r v : Nat) (e : RegEntry), s.Inv → s.entryAt r = some e → v < 2 ^ e.width →
    ∃ q t, assemble s.cfg (.wrall (.index r) v) = some q ∧ step (s.withRequests [q]) = .next t ∧
      Responds t .ok 0 ∧ t.reg r = v
end

