-- ==== Sys2Proof/Laws/Bits.lean ====
section
/-! SUPPORT. Bit by bit, what each operand form of Machine/Operands.lean computes, and how large it can be. -/

namespace Sys2Proof.Machine

theorem ones_eq (n : Nat) : ones n = 2 ^ n - 1 := by simp [ones, Nat.shiftLeft_eq]

@[simp] theorem testBit_ones (n i : Nat) : (ones n).testBit i = decide (i < n) := by
  simp [ones_eq, Nat.testBit_two_pow_sub_one]

theorem and_ones (v n : Nat) : v &&& ones n = v % 2 ^ n := by
  simp [ones_eq, Nat.and_two_pow_sub_one_eq_mod]

@[simp] theorem testBit_fieldmask (start size i : Nat) :
    (fieldmask start size).testBit i = (decide (start ≤ i) && decide (i < start + size)) := by
  simp only [fieldmask, Nat.testBit_shiftLeft, testBit_ones, ge_iff_le]
  by_cases h : start ≤ i
  · have : i - start < size ↔ i < start + size := by omega
    simp [h, this]
  · simp [h]

@[simp] theorem testBit_clearMask (v m i : Nat) : (clearMask v m).testBit i = (v.testBit i && !m.testBit i) := by
  simp only [clearMask, Nat.testBit_xor, Nat.testBit_and]
  cases v.testBit i <;> cases m.testBit i <;> rfl

@[simp] theorem testBit_readRange (x : Nat) (start stop : Int) (j : Nat) :
    (readRange x start stop).testBit j = (x.testBit (start.toNat + j) && decide (j < (stop - start).toNat)) := by
  simp only [readRange, Nat.testBit_and, Nat.testBit_shiftRight, testBit_ones]

@[simp] theorem testBit_readField (x : Nat) (start size : Int) (j : Nat) :
    (readField x start size).testBit j = (x.testBit (start.toNat + j) && decide (j < size.toNat)) := by
  simp [readField]

@[simp] theorem testBit_replaceBits (x : Nat) (start size : Int) (v j : Nat) :
    (replaceBits x start size v).testBit j =
      if start.toNat ≤ j ∧ j < start.toNat + size.toNat then v.testBit (j - start.toNat) else x.testBit j := by
  simp only [replaceBits, Nat.testBit_or, Nat.testBit_and, Nat.testBit_shiftLeft, testBit_clearMask, testBit_fieldmask]
  by_cases h : start.toNat ≤ j <;> by_cases h' : j < start.toNat + size.toNat <;> simp [h, h']

@[simp] theorem testBit_setBit (x : Nat) (bit : Int) (j : Nat) :
    (setBit x bit).testBit j = (x.testBit j || decide (j = bit.toNat)) := by
  simp only [setBit, Nat.testBit_or, Nat.one_shiftLeft, Nat.testBit_two_pow]
  rw [decide_eq_decide.mpr eq_comm]

@[simp] theorem testBit_clearBit (x : Nat) (bit : Int) (j : Nat) :
    (clearBit x bit).testBit j = (x.testBit j && decide (j ≠ bit.toNat)) := by
  simp only [clearBit, testBit_clearMask, Nat.one_shiftLeft, Nat.testBit_two_pow, ne_eq, decide_not]
  rw [decide_eq_decide.mpr eq_comm]

theorem readBit_eq (x : Nat) (bit : Int) : readBit x bit = (x.testBit bit.toNat).toNat := by
  simp [readBit, Nat.testBit, Nat.and_one_is_mod, Nat.one_and_eq_mod_two]
  rcases Nat.mod_two_eq_zero_or_one (x >>> bit.toNat) with h | h <;> simp [h]

/-- A number whose bits from `n` on are all zero is below `2^n`. -/
theorem lt_two_pow_of_bits (v n : Nat) (h : ∀ j, n ≤ j → v.testBit j = false) : v < 2 ^ n :=
  Nat.lt_pow_two_of_testBit v (by simpa using h)

/-- A number below `2^n` has no bit from `n` on. -/
theorem testBit_of_lt (v n j : Nat) (hv : v < 2 ^ n) (hj : n ≤ j) : v.testBit j = false :=
  Nat.testBit_lt_two_pow (lt_of_lt_of_le hv (Nat.pow_le_pow_right (by decide) hj))

theorem readRange_lt (x : Nat) (start stop : Int) : readRange x start stop < 2 ^ (stop - start).toNat := by
  refine lt_two_pow_of_bits _ _ fun j hj => ?_
  have : ¬ j < (stop - start).toNat := by omega
  simp [this]

theorem readField_lt (x : Nat) (start size : Int) : readField x start size < 2 ^ size.toNat := by
  refine lt_two_pow_of_bits _ _ fun j hj => ?_
  have : ¬ j < size.toNat := by omega
  simp [this]

theorem replaceBits_lt (x w : Nat) (start size : Int) (v : Nat) (hx : x < 2 ^ w)
    (hs : start.toNat + size.toNat ≤ w) : replaceBits x start size v < 2 ^ w := by
  refine lt_two_pow_of_bits _ _ fun j hj => ?_
  have : ¬ (start.toNat ≤ j ∧ j < start.toNat + size.toNat) := by omega
  rw [testBit_replaceBits, if_neg this, testBit_of_lt x w j hx hj]

theorem setBit_lt (x w : Nat) (bit : Int) (hx : x < 2 ^ w) (hb : bit.toNat < w) : setBit x bit < 2 ^ w := by
  refine lt_two_pow_of_bits _ _ fun j hj => ?_
  have : j ≠ bit.toNat := by omega
  simp [testBit_of_lt x w j hx hj, this]

theorem clearBit_lt (x w : Nat) (bit : Int) (hx : x < 2 ^ w) : clearBit x bit < 2 ^ w := by
  refine lt_two_pow_of_bits _ _ fun j hj => ?_
  simp [testBit_of_lt x w j hx hj]

theorem readBit_le (x : Nat) (bit : Int) : readBit x bit ≤ 1 := by
  rw [readBit_eq]; cases x.testBit bit.toNat <;> simp

theorem resetValue_lt (e : RegEntry) : resetValue e < 2 ^ e.width := by
  rw [resetValue, and_ones]
  exact Nat.mod_lt _ (Nat.two_pow_pos _)

/-- A value that fits the read-data path is presented whole. -/
theorem zext64_toNat (v : Nat) (h : v < 2 ^ 64) : (zext64 v).toNat = v := by
  simpa [zext64] using Nat.mod_eq_of_lt h

/-! The bounds checks, as propositions. -/

theorem bitOutside_eq_false (w : Nat) (bit : Int) : bitOutside w bit = false ↔ 0 ≤ bit ∧ bit < w := by
  simp [bitOutside]

theorem rangeOutside_eq_false (w : Nat) (start stop : Int) :
    rangeOutside w start stop = false ↔ 0 ≤ start ∧ stop ≤ w ∧ start < stop := by
  simp [rangeOutside, and_assoc]

theorem spanOutside_eq_false (w : Nat) (start size : Int) :
    spanOutside w start size = false ↔ 0 ≤ start ∧ 0 < size ∧ start + size ≤ w := by
  simp [spanOutside, and_assoc]

theorem fieldOutside_eq_false (w : Nat) (f : FieldEntry) : fieldOutside w f = false ↔ f.start + f.size ≤ w := by
  simp [fieldOutside]

end Sys2Proof.Machine
end

