-- ==== Sys2Proof/Laws/Decode.lean ====
section
/-! SUPPORT. The fields of a packed command word, a word rebuilt from its fields, and the operand fields as numbers. -/

namespace Sys2Proof

theorem toNat_append_add {m n : Nat} (x : BitVec m) (y : BitVec n) : (x ++ y).toNat = x.toNat * 2 ^ n + y.toNat := by
  rw [BitVec.toNat_append, ← Nat.shiftLeft_add_eq_or_of_lt y.isLt, Nat.shiftLeft_eq]

/-- A packed word as a number (30_encoding.md R62). -/
theorem toNat_pack (r b a : Byte) (d : BitVec 1) (op : BitVec 4) :
    (pack r b a d op).toNat =
      op.toNat + 16 * d.toNat + 256 * a.toNat + 65536 * b.toNat + 16777216 * r.toNat := by
  simp only [pack, toNat_append_add, BitVec.toNat_ofNat]
  omega

/-- A run of bits of a word as a number. -/
theorem toNat_slice (w : Cmd) (lo n : Nat) : (w.extractLsb' lo n).toNat = w.toNat / 2 ^ lo % 2 ^ n := by
  rw [BitVec.extractLsb'_toNat, Nat.shiftRight_eq_div_pow]

@[simp] theorem fieldR_pack (r b a : Byte) (d : BitVec 1) (op : BitVec 4) : fieldR (pack r b a d op) = r := by
  apply BitVec.eq_of_toNat_eq
  rw [fieldR, toNat_slice, toNat_pack]
  omega

@[simp] theorem fieldB_pack (r b a : Byte) (d : BitVec 1) (op : BitVec 4) : fieldB (pack r b a d op) = b := by
  apply BitVec.eq_of_toNat_eq
  rw [fieldB, toNat_slice, toNat_pack]
  omega

@[simp] theorem fieldA_pack (r b a : Byte) (d : BitVec 1) (op : BitVec 4) : fieldA (pack r b a d op) = a := by
  apply BitVec.eq_of_toNat_eq
  rw [fieldA, toNat_slice, toNat_pack]
  omega

@[simp] theorem fieldZ_pack (r b a : Byte) (d : BitVec 1) (op : BitVec 4) : fieldZ (pack r b a d op) = 0 := by
  apply BitVec.eq_of_toNat_eq
  rw [fieldZ, toNat_slice, toNat_pack]
  simp only [show (0 : BitVec 3).toNat = 0 from rfl]
  omega

@[simp] theorem fieldD_pack (r b a : Byte) (d : BitVec 1) (op : BitVec 4) : fieldD (pack r b a d op) = d := by
  apply BitVec.eq_of_toNat_eq
  rw [fieldD, toNat_slice, toNat_pack]
  omega

@[simp] theorem fieldOP_pack (r b a : Byte) (d : BitVec 1) (op : BitVec 4) : fieldOP (pack r b a d op) = op := by
  apply BitVec.eq_of_toNat_eq
  rw [fieldOP, toNat_slice, toNat_pack]
  omega

/-- A word whose reserved bits are zero is what its fields pack to. -/
theorem pack_fields (w : Cmd) (hz : fieldZ w = 0) :
    pack (fieldR w) (fieldB w) (fieldA w) (fieldD w) (fieldOP w) = w := by
  apply BitVec.eq_of_toNat_eq
  have hz' := congrArg BitVec.toNat hz
  simp only [fieldZ, toNat_slice, show (0 : BitVec 3).toNat = 0 from rfl] at hz'
  simp only [toNat_pack, fieldR, fieldB, fieldA, fieldD, fieldOP, toNat_slice]
  have := w.isLt
  omega

theorem signedField_sext8 (f : Byte) : signedField (sext8 f) = f := by
  revert f; decide

theorem signedOk_sext8 (f : Byte) : signedOk (sext8 f) = true := by
  revert f; decide

/-- The two's-complement value of an operand field, by its unsigned value (00_scope.md R12). -/
theorem sext8_eq (f : Byte) : sext8 f = if f.toNat < 128 then (f.toNat : Int) else (f.toNat : Int) - 256 := by
  revert f; decide

theorem sext8_signedField (i : Int) (h : signedOk i = true) : sext8 (signedField i) = i := by
  obtain ⟨h1, h2⟩ : -128 ≤ i ∧ i ≤ 127 := by simpa [signedOk] using h
  have e : (signedField i).toNat = (i % 256).toNat := by simp [signedField, BitVec.toNat_ofInt]
  rw [sext8_eq, e]
  split <;> omega

theorem toNat_indexField (n : Nat) (h : n ≤ 255) : (indexField n).toNat = n := by
  simp only [indexField, BitVec.toNat_ofNat]
  omega

@[simp] theorem indexField_toNat (f : Byte) : indexField f.toNat = f := by simp [indexField]

/-- The two values of `D` and the sixteen of `OP`. -/
theorem op_values (op : BitVec 4) : op = 0 ∨ op = 1 ∨ op = 2 ∨ op = 3 ∨ op = 4 ∨ op = 5 ∨ op = 6 ∨ op = 7 ∨ op = 8 ∨
    op = 9 ∨ op = 10 ∨ op = 11 ∨ op = 12 ∨ op = 13 ∨ op = 14 ∨ op = 15 := by
  revert op; decide

theorem d_values (d : BitVec 1) : d = 0 ∨ d = 1 := by
  revert d; decide

theorem whenZero_ok (z : Bool) (i j : Instr) : whenZero z i = .ok j ↔ z = true ∧ i = j := by
  cases z <;> simp [whenZero]

/-- When a word decodes to a request, and to which: the table of 30_encoding.md R68 read backwards. -/
theorem decode_ok_iff (w : Cmd) (i : Instr) : decode w = .ok i ↔ fieldZ w = 0 ∧
    ((fieldOP w = 1 ∧ fieldD w = 0 ∧ (fieldA w = 0 ∧ fieldB w = 0) ∧ .width (fieldR w).toNat = i) ∨
     (fieldOP w = 2 ∧ fieldD w = 0 ∧ (fieldA w = 0 ∧ fieldB w = 0) ∧ .read (fieldR w).toNat = i) ∨
     (fieldOP w = 3 ∧ fieldD w = 0 ∧ fieldB w = 0 ∧ .rdbit (fieldR w).toNat (sext8 (fieldA w)) = i) ∨
     (fieldOP w = 4 ∧ fieldD w = 0 ∧ fieldB w = 0 ∧ .wrbit (fieldR w).toNat (sext8 (fieldA w)) = i) ∨
     (fieldOP w = 5 ∧ fieldD w = 0 ∧ .rdrange (fieldR w).toNat (sext8 (fieldA w)) (sext8 (fieldB w)) = i) ∨
     (fieldOP w = 5 ∧ fieldD w = 1 ∧ fieldB w = 0 ∧ .rdrest (fieldR w).toNat (sext8 (fieldA w)) = i) ∨
     (fieldOP w = 6 ∧ fieldD w = 0 ∧ .wrrange (fieldR w).toNat (sext8 (fieldA w)) (sext8 (fieldB w)) = i) ∨
     (fieldOP w = 7 ∧ fieldD w = 0 ∧ fieldB w = 0 ∧ .fget (fieldR w).toNat (fieldA w).toNat = i) ∨
     (fieldOP w = 8 ∧ fieldD w = 0 ∧ fieldB w = 0 ∧ .fset (fieldR w).toNat (fieldA w).toNat = i)) := by
  unfold decode
  by_cases hz : fieldZ w = 0
  · generalize fieldOP w = op, fieldD w = d
    simp only [hz, ne_eq, not_true_eq_false, if_false, true_and]
    rcases op_values op with rfl | rfl | rfl | rfl | rfl | rfl | rfl | rfl | rfl | rfl | rfl | rfl | rfl | rfl | rfl | rfl <;>
      rcases d_values d with rfl | rfl <;> simp [whenZero_ok]
  · simp only [hz, ne_eq, not_false_eq_true, if_true, false_and, reduceCtorEq]

/-! Masked words, by their fields (30_encoding.md R67). -/

theorem append_and {m n : Nat} (x a : BitVec m) (y b : BitVec n) :
    (x ++ y) &&& (a ++ b) = (x &&& a) ++ (y &&& b) := by
  refine BitVec.eq_of_getLsbD_eq fun i _ => ?_
  simp only [BitVec.getLsbD_and, BitVec.getLsbD_append]
  split <;> simp

/-- A word is its four bytes. -/
theorem eq_four_bytes (w : Cmd) : w = fieldR w ++ fieldB w ++ fieldA w ++ w.extractLsb' 0 8 := by
  apply BitVec.eq_of_toNat_eq
  simp only [toNat_append_add, fieldR, fieldB, fieldA, toNat_slice]
  have := w.isLt
  omega

/-- A word masked by four bytes equals four bytes where each field does. -/
theorem and_eq_four_bytes (w : Cmd) (mr mb ma ml vr vb va vl : Byte) :
    (w &&& (mr ++ mb ++ ma ++ ml) = vr ++ vb ++ va ++ vl) ↔
      fieldR w &&& mr = vr ∧ fieldB w &&& mb = vb ∧ fieldA w &&& ma = va ∧ w.extractLsb' 0 8 &&& ml = vl := by
  conv_lhs => rw [eq_four_bytes w]
  rw [append_and, append_and, append_and]
  constructor
  · intro h
    have h' := congrArg BitVec.toNat h
    simp only [toNat_append_add] at h'
    refine ⟨?_, ?_, ?_, ?_⟩ <;> apply BitVec.eq_of_toNat_eq <;> omega
  · rintro ⟨rfl, rfl, rfl, rfl⟩
    rfl

/-- The low byte of a word is its fields `OP`, `D` and `Z`. -/
theorem lowByte_eq_iff (w : Cmd) (v : Byte) : w.extractLsb' 0 8 = v ↔
    fieldOP w = v.extractLsb' 0 4 ∧ fieldD w = v.extractLsb' 4 1 ∧ fieldZ w = v.extractLsb' 5 3 := by
  constructor
  · rintro rfl
    refine ⟨?_, ?_, ?_⟩ <;> apply BitVec.eq_of_toNat_eq <;>
      simp only [fieldOP, fieldD, fieldZ, toNat_slice, BitVec.extractLsb'_toNat, Nat.shiftRight_eq_div_pow] <;> omega
  · rintro ⟨h1, h2, h3⟩
    apply BitVec.eq_of_toNat_eq
    have h1' := congrArg BitVec.toNat h1
    have h2' := congrArg BitVec.toNat h2
    have h3' := congrArg BitVec.toNat h3
    simp only [fieldOP, fieldD, fieldZ, toNat_slice, BitVec.extractLsb'_toNat, Nat.shiftRight_eq_div_pow] at h1' h2' h3' ⊢
    omega

end Sys2Proof
end

