-- ==== Sys2Proof/Laws/Elaborate.lean ====
section
/-! SUPPORT. When each elaboration check passes (70_reset_and_hazards.md R233). -/

namespace Sys2Proof.Machine

theorem fieldEntryOk_iff (f : FieldEntry) : fieldEntryOk f = true ↔ 0 ≤ f.start ∧ 1 ≤ f.size := by
  simp [fieldEntryOk]

theorem checkFields_eq_none (r k : Nat) (fs : List FieldEntry) :
    checkFields r k fs = none ↔ ∀ f ∈ fs, fieldEntryOk f = true := by
  induction fs generalizing k with
  | nil => simp [checkFields]
  | cons f fs ih => cases h : fieldEntryOk f <;> simp [checkFields, h, ih]

theorem checkEntry_eq_none (allowed : List String) (r : Nat) (e : RegEntry) :
    checkEntry allowed r e = none ↔
      e.name ∈ allowed ∧ (1 ≤ e.width ∧ e.width ≤ 64) ∧ 0 ≤ e.init ∧ e.fields.length ≤ 256 ∧
        ∀ f ∈ e.fields, fieldEntryOk f = true := by
  unfold checkEntry
  split
  · simp_all
  split
  · next h1 h2 => simp; omega
  split
  · simp; omega
  split
  · simp; omega
  · simp_all [checkFields_eq_none]; omega

theorem checkEntries_eq_none (allowed : List String) (r : Nat) (es : List RegEntry) :
    checkEntries allowed r es = none ↔ ∀ k e, es[k]? = some e → checkEntry allowed (r + k) e = none := by
  induction es generalizing r with
  | nil => simp [checkEntries]
  | cons e es ih =>
    cases h : checkEntry allowed r e with
    | some err =>
      simp only [checkEntries, h, reduceCtorEq, false_iff, not_forall]
      exact ⟨0, e, rfl, by simp [h]⟩
    | none =>
      simp only [checkEntries, h, ih]
      constructor
      · intro hk k e' he'
        cases k with
        | zero => simp at he'; subst he'; simpa using h
        | succ k => simpa [Nat.add_assoc, Nat.add_comm 1] using hk k e' (by simpa using he')
      · intro hk k e' he'
        simpa [Nat.add_assoc, Nat.add_comm 1] using hk (k + 1) e' (by simpa using he')

/-- What a valid configuration gives about one of its entries. -/
theorem entry_of_valid (cfg : Config) (r : Nat) (e : RegEntry) (hv : configError cfg = none)
    (he : cfg.catalog[r]? = some e) :
    e.name ∈ cfg.allowedNames ∧ (1 ≤ e.width ∧ e.width ≤ 64) ∧ 0 ≤ e.init ∧ e.fields.length ≤ 256 ∧
      ∀ f ∈ e.fields, 0 ≤ f.start ∧ 1 ≤ f.size := by
  unfold configError at hv
  split at hv
  · cases hv
  have h := (checkEntries_eq_none _ _ _).mp hv r e he
  simpa [checkEntry_eq_none, fieldEntryOk_iff] using h

end Sys2Proof.Machine
end

