-- ==== Sys2Proof/Laws/State.lean ====
section
/-! SUPPORT. What each update of the state does to each field, so that no proof unfolds a record update. -/

namespace Sys2Proof.Machine

@[simp] theorem State.setReg_cfg (s : State) (r v : Nat) : (s.setReg r v).cfg = s.cfg := rfl
@[simp] theorem State.setReg_x (s : State) (r v : Nat) : (s.setReg r v).x = s.x.set r v := rfl
@[simp] theorem State.setReg_rspValid (s : State) (r v : Nat) : (s.setReg r v).rspValid = s.rspValid := rfl
@[simp] theorem State.setReg_rspStatus (s : State) (r v : Nat) : (s.setReg r v).rspStatus = s.rspStatus := rfl
@[simp] theorem State.setReg_rspRdata (s : State) (r v : Nat) : (s.setReg r v).rspRdata = s.rspRdata := rfl
@[simp] theorem State.setReg_port (s : State) (r v : Nat) : (s.setReg r v).port = s.port := rfl
@[simp] theorem State.setReg_later (s : State) (r v : Nat) : (s.setReg r v).later = s.later := rfl

@[simp] theorem State.respond_cfg (s : State) (st : Status) (d : Nat) : (s.respond st d).cfg = s.cfg := rfl
@[simp] theorem State.respond_x (s : State) (st : Status) (d : Nat) : (s.respond st d).x = s.x := rfl
@[simp] theorem State.respond_rspValid (s : State) (st : Status) (d : Nat) : (s.respond st d).rspValid = true := rfl
@[simp] theorem State.respond_rspStatus (s : State) (st : Status) (d : Nat) : (s.respond st d).rspStatus = st.code := rfl
@[simp] theorem State.respond_rspRdata (s : State) (st : Status) (d : Nat) : (s.respond st d).rspRdata = zext64 d := rfl
@[simp] theorem State.respond_port (s : State) (st : Status) (d : Nat) : (s.respond st d).port = s.port := rfl
@[simp] theorem State.respond_later (s : State) (st : Status) (d : Nat) : (s.respond st d).later = s.later := rfl

@[simp] theorem State.raise_cfg (s : State) (st : Status) : (s.raise st).cfg = s.cfg := rfl
@[simp] theorem State.raise_x (s : State) (st : Status) : (s.raise st).x = s.x := rfl
@[simp] theorem State.raise_rspValid (s : State) (st : Status) : (s.raise st).rspValid = true := rfl
@[simp] theorem State.raise_rspStatus (s : State) (st : Status) : (s.raise st).rspStatus = st.code := rfl
@[simp] theorem State.raise_rspRdata (s : State) (st : Status) : (s.raise st).rspRdata = 0 := rfl
@[simp] theorem State.raise_port (s : State) (st : Status) : (s.raise st).port = s.port := rfl
@[simp] theorem State.raise_later (s : State) (st : Status) : (s.raise st).later = s.later := rfl

@[simp] theorem State.clearResponse_cfg (s : State) : (s.clearResponse).cfg = s.cfg := rfl
@[simp] theorem State.clearResponse_x (s : State) : (s.clearResponse).x = s.x := rfl
@[simp] theorem State.clearResponse_rspValid (s : State) : (s.clearResponse).rspValid = false := rfl
@[simp] theorem State.clearResponse_rspStatus (s : State) : (s.clearResponse).rspStatus = 0 := rfl
@[simp] theorem State.clearResponse_rspRdata (s : State) : (s.clearResponse).rspRdata = 0 := rfl
@[simp] theorem State.clearResponse_port (s : State) : (s.clearResponse).port = s.port := rfl
@[simp] theorem State.clearResponse_later (s : State) : (s.clearResponse).later = s.later := rfl

@[simp] theorem State.applyReset_cfg (s : State) : (s.applyReset).cfg = s.cfg := rfl
@[simp] theorem State.applyReset_x (s : State) : (s.applyReset).x = resetValues s.cfg := rfl
@[simp] theorem State.applyReset_rspValid (s : State) : (s.applyReset).rspValid = false := rfl
@[simp] theorem State.applyReset_rspStatus (s : State) : (s.applyReset).rspStatus = 0 := rfl
@[simp] theorem State.applyReset_rspRdata (s : State) : (s.applyReset).rspRdata = 0 := rfl
@[simp] theorem State.applyReset_port (s : State) : (s.applyReset).port = s.port := rfl
@[simp] theorem State.applyReset_later (s : State) : (s.applyReset).later = s.later := rfl

@[simp] theorem State.idleEdge_cfg (s : State) : (s.idleEdge).cfg = s.cfg := rfl
@[simp] theorem State.idleEdge_x (s : State) : (s.idleEdge).x = s.x := rfl
@[simp] theorem State.idleEdge_rspValid (s : State) : (s.idleEdge).rspValid = false := rfl
@[simp] theorem State.idleEdge_rspStatus (s : State) : (s.idleEdge).rspStatus = 0 := rfl
@[simp] theorem State.idleEdge_rspRdata (s : State) : (s.idleEdge).rspRdata = 0 := rfl
@[simp] theorem State.idleEdge_port (s : State) : (s.idleEdge).port = s.port := rfl
@[simp] theorem State.idleEdge_later (s : State) : (s.idleEdge).later = s.later := rfl

@[simp] theorem State.advance_cfg (s : State) : (s.advance).cfg = s.cfg := rfl
@[simp] theorem State.advance_x (s : State) : (s.advance).x = s.x := rfl
@[simp] theorem State.advance_rspValid (s : State) : (s.advance).rspValid = s.rspValid := rfl
@[simp] theorem State.advance_rspStatus (s : State) : (s.advance).rspStatus = s.rspStatus := rfl
@[simp] theorem State.advance_rspRdata (s : State) : (s.advance).rspRdata = s.rspRdata := rfl
@[simp] theorem State.advance_port (s : State) : (s.advance).port = s.later.headD .idle := rfl
@[simp] theorem State.advance_later (s : State) : (s.advance).later = s.later.tail := rfl

@[simp] theorem State.withFetchWord_cfg (s : State) (nbits w : Nat) : (s.withFetchWord nbits w).cfg = s.cfg := rfl
@[simp] theorem State.withFetchWord_x (s : State) (nbits w : Nat) : (s.withFetchWord nbits w).x = s.x := rfl
@[simp] theorem State.withFetchWord_rspValid (s : State) (nbits w : Nat) : (s.withFetchWord nbits w).rspValid = s.rspValid := rfl
@[simp] theorem State.withFetchWord_rspStatus (s : State) (nbits w : Nat) : (s.withFetchWord nbits w).rspStatus = s.rspStatus := rfl
@[simp] theorem State.withFetchWord_rspRdata (s : State) (nbits w : Nat) : (s.withFetchWord nbits w).rspRdata = s.rspRdata := rfl
@[simp] theorem State.withFetchWord_port (s : State) (nbits w : Nat) : (s.withFetchWord nbits w).port = portOfWord nbits w := rfl
@[simp] theorem State.withFetchWord_later (s : State) (nbits w : Nat) : (s.withFetchWord nbits w).later = s.later := rfl

@[simp] theorem State.withRequests_cfg (s : State) (qs : List Request) : (s.withRequests qs).cfg = s.cfg := rfl
@[simp] theorem State.withRequests_x (s : State) (qs : List Request) : (s.withRequests qs).x = s.x := rfl
@[simp] theorem State.withRequests_rspValid (s : State) (qs : List Request) : (s.withRequests qs).rspValid = s.rspValid := rfl
@[simp] theorem State.withRequests_rspStatus (s : State) (qs : List Request) : (s.withRequests qs).rspStatus = s.rspStatus := rfl
@[simp] theorem State.withRequests_rspRdata (s : State) (qs : List Request) : (s.withRequests qs).rspRdata = s.rspRdata := rfl
@[simp] theorem State.withRequests_port (s : State) (qs : List Request) : (s.withRequests qs).port = (qs.map Request.pins).headD .idle := rfl
@[simp] theorem State.withRequests_later (s : State) (qs : List Request) : (s.withRequests qs).later = (qs.map Request.pins).tail := rfl

/-! The state an instance starts in. -/

@[simp] theorem State.ofConfig_cfg (cfg : Config) : (State.ofConfig cfg).cfg = cfg := rfl
@[simp] theorem State.ofConfig_x (cfg : Config) : (State.ofConfig cfg).x = resetValues cfg := rfl
@[simp] theorem State.ofConfig_rspValid (cfg : Config) : (State.ofConfig cfg).rspValid = false := rfl
@[simp] theorem State.ofConfig_rspStatus (cfg : Config) : (State.ofConfig cfg).rspStatus = 0 := rfl
@[simp] theorem State.ofConfig_rspRdata (cfg : Config) : (State.ofConfig cfg).rspRdata = 0 := rfl
@[simp] theorem State.ofConfig_port (cfg : Config) : (State.ofConfig cfg).port = .idle := rfl
@[simp] theorem State.ofConfig_later (cfg : Config) : (State.ofConfig cfg).later = [] := rfl

/-! Reads of the state, through the updates they do not see. -/

@[simp] theorem State.respond_reg (s : State) (st : Status) (d q : Nat) : (s.respond st d).reg q = s.reg q := rfl
@[simp] theorem State.raise_reg (s : State) (st : Status) (q : Nat) : (s.raise st).reg q = s.reg q := rfl
@[simp] theorem State.advance_reg (s : State) (q : Nat) : s.advance.reg q = s.reg q := rfl
@[simp] theorem State.idleEdge_reg (s : State) (q : Nat) : s.idleEdge.reg q = s.reg q := rfl

/-- A register written holds the value; every other register keeps its own. -/
theorem State.setReg_reg (s : State) (r v q : Nat) :
    (s.setReg r v).reg q = if q = r ∧ r < s.x.length then v else s.reg q := by
  simp only [State.reg, State.setReg_x, List.getD_eq_getElem?_getD, List.getElem?_set]
  by_cases h : r = q
  · subst h
    by_cases hl : r < s.x.length <;> simp [hl]
  · simp [h, Ne.symm h]

end Sys2Proof.Machine
end

