-- ==== Sys2Proof/Laws/Ops.lean ====
section
/-! SUPPORT. What each shared operation can do, said once: the end of a request, the common step, exec, the edge and
the step. -/

namespace Sys2Proof.Machine

/-! The end of a request. -/

@[simp] theorem State.complete_fail (s : State) (r : Nat) (e : Status) : s.complete r (.fail e) = s.raise e := rfl
@[simp] theorem State.complete_answer (s : State) (r v : Nat) : s.complete r (.answer v) = s.respond .ok v := rfl
@[simp] theorem State.complete_update (s : State) (r v : Nat) :
    s.complete r (.update v) = (s.setReg r v).respond .ok 0 := rfl

@[simp] theorem State.complete_cfg (s : State) (r : Nat) (f : Effect) : (s.complete r f).cfg = s.cfg := by cases f <;> rfl
@[simp] theorem State.complete_port (s : State) (r : Nat) (f : Effect) : (s.complete r f).port = s.port := by
  cases f <;> rfl
@[simp] theorem State.complete_later (s : State) (r : Nat) (f : Effect) : (s.complete r f).later = s.later := by
  cases f <;> rfl
@[simp] theorem State.complete_rspValid (s : State) (r : Nat) (f : Effect) : (s.complete r f).rspValid = true := by
  cases f <;> rfl

/-- Every register but the one named keeps its value. -/
theorem State.complete_elsewhere (s : State) (r q : Nat) (f : Effect) (h : q ≠ r) :
    (s.complete r f).x[q]? = s.x[q]? := by
  cases f with
  | fail | answer => rfl
  | update v => simp [Ne.symm h]

@[simp] theorem State.complete_length (s : State) (r : Nat) (f : Effect) : (s.complete r f).x.length = s.x.length := by
  cases f <;> simp

/-! The common step (R100). -/

theorem State.execute_of_none (s : State) (r : Nat) (rule : RegEntry → Nat → Effect) (h : s.entryAt r = none) :
    s.execute r rule = s.raise .unknownRegisterName := by simp [State.execute, h]

theorem State.execute_of_entry (s : State) (r : Nat) (rule : RegEntry → Nat → Effect) (e : RegEntry)
    (h : s.entryAt r = some e) : s.execute r rule = s.complete r (rule e (s.reg r)) := by simp [State.execute, h]

/-- Everything the common step can do: refuse the register index, or end the request as its rule says. -/
theorem State.execute_cases (s : State) (r : Nat) (rule : RegEntry → Nat → Effect) :
    (s.entryAt r = none ∧ s.execute r rule = s.raise .unknownRegisterName) ∨
    ∃ e, s.entryAt r = some e ∧ s.execute r rule = s.complete r (rule e (s.reg r)) := by
  cases h : s.entryAt r with
  | none => exact .inl ⟨rfl, s.execute_of_none r rule h⟩
  | some e => exact .inr ⟨e, rfl, s.execute_of_entry r rule e h⟩

/-! exec. -/

/-- Every request is the common step on its register, with a rule that sees only the entry, the value of that register
and the write data (R22, R29), and always has a next state (R236). -/
theorem exec_eq_execute (i : Instr) : ∃ rule : Nat → RegEntry → Nat → Effect, ∀ s,
    exec i s = .next (s.execute i.reg (rule s.wdata)) := by
  cases i with
  | width r => exact ⟨fun _ => ruleWidth, fun _ => rfl⟩
  | read r => exact ⟨fun _ => ruleRead, fun _ => rfl⟩
  | rdbit r bit => exact ⟨fun _ => ruleRdbit bit, fun _ => rfl⟩
  | wrbit r bit => exact ⟨ruleWrbit bit, fun _ => rfl⟩
  | rdrange r start stop => exact ⟨fun _ => ruleRdrange start stop, fun _ => rfl⟩
  | rdrest r start => exact ⟨fun _ => ruleRdrest start, fun _ => rfl⟩
  | wrrange r start size => exact ⟨ruleWrrange start size, fun _ => rfl⟩
  | fget r k => exact ⟨fun _ => ruleFget k, fun _ => rfl⟩
  | fset r k => exact ⟨ruleFset k, fun _ => rfl⟩

/-- exec on each constructor, by the request's rule. -/
theorem exec_width (r : Nat) (s : State) : exec (.width r) s = .next (s.execute r ruleWidth) := rfl
theorem exec_read (r : Nat) (s : State) : exec (.read r) s = .next (s.execute r ruleRead) := rfl
theorem exec_rdbit (r : Nat) (bit : Int) (s : State) : exec (.rdbit r bit) s = .next (s.execute r (ruleRdbit bit)) := rfl
theorem exec_wrbit (r : Nat) (bit : Int) (s : State) :
    exec (.wrbit r bit) s = .next (s.execute r (ruleWrbit bit s.wdata)) := rfl
theorem exec_rdrange (r : Nat) (start stop : Int) (s : State) :
    exec (.rdrange r start stop) s = .next (s.execute r (ruleRdrange start stop)) := rfl
theorem exec_rdrest (r : Nat) (start : Int) (s : State) :
    exec (.rdrest r start) s = .next (s.execute r (ruleRdrest start)) := rfl
theorem exec_wrrange (r : Nat) (start size : Int) (s : State) :
    exec (.wrrange r start size) s = .next (s.execute r (ruleWrrange start size s.wdata)) := rfl
theorem exec_fget (r k : Nat) (s : State) : exec (.fget r k) s = .next (s.execute r (ruleFget k)) := rfl
theorem exec_fset (r k : Nat) (s : State) : exec (.fset r k) s = .next (s.execute r (ruleFset k s.wdata)) := rfl

/-! The edge and the step. -/

@[simp] theorem onNext_next (f : State → State) (s : State) : onNext f (.next s) = .next (f s) := rfl

/-- Everything an edge can do: a reset, an accepted request, an illegal word, or nothing. -/
theorem clockEdge_cases (s : State) :
    (s.port.rst = true ∧ clockEdge s = .next s.applyReset) ∨
    (s.port.rst = false ∧ s.port.reqValid = true ∧ ∃ i, decode s.port.cmd = .ok i ∧ clockEdge s = exec i s) ∨
    (s.port.rst = false ∧ s.port.reqValid = true ∧ ∃ e, decode s.port.cmd = .error e ∧
      clockEdge s = .next (s.raise .illegalCommand)) ∨
    (s.port.rst = false ∧ s.port.reqValid = false ∧ clockEdge s = .next s.idleEdge) := by
  cases hr : s.port.rst with
  | true => simp [clockEdge, hr]
  | false =>
    cases hv : s.port.reqValid with
    | false => simp [clockEdge, hr, hv]
    | true => cases hd : decode s.port.cmd <;> simp [clockEdge, acceptRequest, hr, hv, hd]

/-- Everything a step can do: refuse the configuration, or one edge and then the pins' next values. -/
theorem step_cases (s : State) :
    (∃ e, configError s.cfg = some e ∧ step s = .refused (.invalidConfiguration e)) ∨
    (configError s.cfg = none ∧ ∃ t, clockEdge s = .next t ∧ step s = .next t.advance) := by
  cases hc : configError s.cfg with
  | some e => exact .inl ⟨e, rfl, by simp [step, hc]⟩
  | none =>
    refine .inr ⟨rfl, ?_⟩
    have key : ∃ t, clockEdge s = .next t := by
      rcases clockEdge_cases s with ⟨_, h⟩ | ⟨_, _, i, _, h⟩ | ⟨_, _, _, _, h⟩ | ⟨_, _, h⟩
      · exact ⟨_, h⟩
      · obtain ⟨rule, hrule⟩ := exec_eq_execute i
        exact ⟨_, h.trans (hrule s)⟩
      · exact ⟨_, h⟩
      · exact ⟨_, h⟩
    obtain ⟨t, ht⟩ := key
    exact ⟨t, ht, by simp [step, hc, ht]⟩

end Sys2Proof.Machine
end

