-- ==== Sys2Proof/Laws/PerInstr.lean ====
section
/-! SUPPORT. The family EncodesOperands: a well-formed request's command word carries its register index in `R` and has
its reserved bits zero (30_encoding.md R62, R65). -/

namespace Sys2Proof.Laws

/-- The word of a well-formed request names its register, and its `Z` is 0. -/
def EncodesOperands.Statement (i : Instr) : Prop :=
  i.wellFormed = true → (fieldR (encode i)).toNat = i.reg ∧ fieldZ (encode i) = 0

/-- The `R` and `Z` of a packed word. -/
theorem reg_of_pack (r : Nat) (b a : Byte) (d : BitVec 1) (op : BitVec 4) (h : regOk r = true) :
    (fieldR (pack (indexField r) b a d op)).toNat = r ∧ fieldZ (pack (indexField r) b a d op) = 0 := by
  rw [fieldR_pack, fieldZ_pack]
  exact ⟨toNat_indexField r (by simpa [regOk] using h), rfl⟩

theorem EncodesOperands.width (r : Nat) : EncodesOperands.Statement (.width r) := fun h => reg_of_pack r _ _ _ _ h

theorem EncodesOperands.read (r : Nat) : EncodesOperands.Statement (.read r) := fun h => reg_of_pack r _ _ _ _ h

theorem EncodesOperands.rdbit (r : Nat) (bit : Int) : EncodesOperands.Statement (.rdbit r bit) := fun h =>
  reg_of_pack r _ _ _ _ (Bool.and_eq_true_iff.mp h).1

theorem EncodesOperands.wrbit (r : Nat) (bit : Int) : EncodesOperands.Statement (.wrbit r bit) := fun h =>
  reg_of_pack r _ _ _ _ (Bool.and_eq_true_iff.mp h).1

theorem EncodesOperands.rdrange (r : Nat) (start stop : Int) : EncodesOperands.Statement (.rdrange r start stop) :=
  fun h => reg_of_pack r _ _ _ _ (Bool.and_eq_true_iff.mp (Bool.and_eq_true_iff.mp h).1).1

theorem EncodesOperands.rdrest (r : Nat) (start : Int) : EncodesOperands.Statement (.rdrest r start) := fun h =>
  reg_of_pack r _ _ _ _ (Bool.and_eq_true_iff.mp h).1

theorem EncodesOperands.wrrange (r : Nat) (start size : Int) : EncodesOperands.Statement (.wrrange r start size) :=
  fun h => reg_of_pack r _ _ _ _ (Bool.and_eq_true_iff.mp (Bool.and_eq_true_iff.mp h).1).1

theorem EncodesOperands.fget (r k : Nat) : EncodesOperands.Statement (.fget r k) := fun h =>
  reg_of_pack r _ _ _ _ (Bool.and_eq_true_iff.mp h).1

theorem EncodesOperands.fset (r k : Nat) : EncodesOperands.Statement (.fset r k) := fun h =>
  reg_of_pack r _ _ _ _ (Bool.and_eq_true_iff.mp h).1

end Sys2Proof.Laws
end

