-- ==== Sys2Proof/Tests/Slice0.lean ====
section
/-! SUPPORT. The model's own tests: the words and results are those of 95_test_vectors.md (the vector's name stands in
each comment) or hand-computed from the rule named. The witnesses at the end meet the hypotheses of the statements. -/

namespace Sys2Proof.Tests

open Sys2Proof.Machine

/-! Well-formedness refuses what no field of the command word can carry. -/

theorem test_wf_register : (Instr.read 256).wellFormed = false := by decide
theorem test_wf_bit_low : (Instr.rdbit 0 (-129)).wellFormed = false := by decide
theorem test_wf_bit_high : (Instr.wrbit 0 128).wellFormed = false := by decide
theorem test_wf_stop : (Instr.rdrange 0 0 128).wellFormed = false := by decide
theorem test_wf_start : (Instr.rdrest 0 (-129)).wellFormed = false := by decide
theorem test_wf_size : (Instr.wrrange 0 0 (-129)).wellFormed = false := by decide
theorem test_wf_field : (Instr.fget 0 256).wellFormed = false := by decide
theorem test_wf_accepts : (Instr.fset 255 255).wellFormed = true := by decide

/-! Decoding of words written out from 95_test_vectors.md section 2.1. -/

theorem test_decode_width : decode 0x00000001 = .ok (.width 0) := by rfl
theorem test_decode_read : decode 0x02000002 = .ok (.read 2) := by rfl
theorem test_decode_rdbit : decode 0x00008003 = .ok (.rdbit 0 (-128)) := by rfl
theorem test_decode_wrbit : decode 0x0000FF04 = .ok (.wrbit 0 (-1)) := by rfl
theorem test_decode_rdrange : decode 0x000C0605 = .ok (.rdrange 0 6 12) := by rfl
theorem test_decode_rdrest : decode 0x00001015 = .ok (.rdrest 0 16) := by rfl
theorem test_decode_wrrange : decode 0x00060606 = .ok (.wrrange 0 6 6) := by rfl
theorem test_decode_fget : decode 0x00000207 = .ok (.fget 0 2) := by rfl
theorem test_decode_fget_unsigned : decode 0x0000FF07 = .ok (.fget 0 255) := by rfl
theorem test_decode_fset : decode 0x00000108 = .ok (.fset 0 1) := by rfl
theorem test_illegal_op_zero : decode 0x00000000 = .error .reservedOpcode := by rfl
theorem test_illegal_op_nine : decode 0x00000009 = .error .reservedOpcode := by rfl
theorem test_illegal_z : decode 0x00000022 = .error .reservedZ := by rfl
theorem test_illegal_read_a : decode 0x00000102 = .error .mustBeZero := by rfl
theorem test_illegal_rdbit_b : decode 0x00010003 = .error .mustBeZero := by rfl
theorem test_illegal_wrbit_d : decode 0x00000014 = .error .strayDefaultStop := by rfl
theorem test_illegal_rdrest_b : decode 0x00011015 = .error .mustBeZero := by rfl

/-- The words the test vectors give for these lines. -/
theorem test_encode_words : [encode (.rdrange 0 6 12), encode (.wrbit 0 (-1)), encode (.rdrest 0 16),
    encode (.wrrange 0 33 (-1)), encode (.fset 0 1), encode (.read 255)] =
    [0x000C0605, 0x0000FF04, 0x00001015, 0x00FF2106, 0x00000108, 0xFF000002] := by decide

/-- Section 2.1: the little-endian bytes of `0x000C0605` are `05 06 0C 00`. -/
theorem test_bytes : cmdBytes 0x000C0605 = [0x05, 0x06, 0x0C, 0x00] := by decide

theorem test_decodeTableWord : decodeTableWord 32 0x00000015 = some (.rdrest 0 0) := by decide

/-! One step on CAT_EX with the given `x0` and request; the registers 1 and 2 at their reset values. -/

/-- CAT_EX with `x[0]` given and a request on the pins. -/
def exState (x0 : Nat) (cmd : Cmd) (wdata : Data) : State :=
  { State.reset with x := [x0, 1, 0xFFFFFFFFFFFFFFFF], port := Request.pins ⟨cmd, wdata⟩ }

/-- Status, read data and registers after a step; nothing where the step stops. -/
def outcomeOf (s : State) : Option (BitVec 3 × Data × List Nat) :=
  match step s with
  | .next t => some (t.rspStatus, t.rspRdata, t.x)
  | .fault _ => none
  | .refused _ => none

/-- The same with register 1 and 2 left out. -/
def firstOf (x0 : Nat) (cmd : Cmd) (wdata : Data) : Option (BitVec 3 × Data × Nat) :=
  (outcomeOf (exState x0 cmd wdata)).map fun p => (p.1, p.2.1, p.2.2.headD 0)

/-- 2.2: WIDTH r2. -/
theorem test_width : firstOf 0 0x02000001 0 = some (0, 64, 0) := by decide
/-- 2.2: READ r2. -/
theorem test_read : firstOf 0 0x02000002 0 = some (0, 0xFFFFFFFFFFFFFFFF, 0) := by decide
/-- 2.2: READ r3. -/
theorem test_read_unknown : firstOf 5 0x03000002 0 = some (5, 0, 5) := by decide
/-- T1. -/
theorem test_rdbit : firstOf 0x8 0x00000303 0 = some (0, 1, 0x8) := by decide
/-- T4. -/
theorem test_rdbit_outside : firstOf 0x8 0x00002003 0 = some (1, 0, 0x8) := by decide
/-- B4. -/
theorem test_wrbit_top : firstOf 0 0x00001F04 1 = some (0, 0, 0x80000000) := by decide
/-- B8: both errors. -/
theorem test_wrbit_both_errors : firstOf 0 0x00002004 2 = some (1, 0, 0) := by decide
/-- G5. -/
theorem test_rdrange : firstOf 0xDEADBEEF 0x00180805 0 = some (0, 0xADBE, 0xDEADBEEF) := by decide
/-- G8: reversed. -/
theorem test_rdrange_reversed : firstOf 0xDEADBEEF 0x00040505 0 = some (1, 0, 0xDEADBEEF) := by decide
/-- H1. -/
theorem test_rdrest : firstOf 0xDEADBEEF 0x00001015 0 = some (0, 0xDEAD, 0xDEADBEEF) := by decide
/-- H4. -/
theorem test_rdrest_width : firstOf 0xDEADBEEF 0x00002015 0 = some (1, 0, 0xDEADBEEF) := by decide
/-- S18. -/
theorem test_wrrange : firstOf 0x12345678 0x00080806 0 = some (0, 0, 0x12340078) := by decide
/-- S10. -/
theorem test_wrrange_too_large : firstOf 0 0x00200006 0x100000000 = some (3, 0, 0) := by decide
/-- F6. -/
theorem test_fget : firstOf 0xABCD 0x00000107 0 = some (0, 0xAB, 0xABCD) := by decide
/-- F10. -/
theorem test_fget_unknown : firstOf 0 0x00000407 0 = some (6, 0, 0) := by decide
/-- F16. -/
theorem test_fset : firstOf 0xDEADBEEF 0x00000208 0x1234 = some (0, 0, 0xDEAD1234) := by decide
/-- F9: both errors. -/
theorem test_fset_both_errors : firstOf 0 0x00000308 0x10000 = some (1, 0, 0) := by decide
/-- B11: the other registers keep their values. -/
theorem test_wrbit_r2 : outcomeOf (exState 7 0x02003F04 0) = some (0, 0, [7, 1, 0x7FFFFFFFFFFFFFFF]) := by decide
/-- P3, step 8: READ with `Z` = 1. -/
theorem test_illegal : firstOf 9 0x02000022 0 = some (7, 0, 9) := by decide

/-- Z1. -/
theorem test_reset_values : State.reset.x = [0x0, 0x1, 0xFFFFFFFFFFFFFFFF] := by decide
/-- Z8: a request at a reset edge is ignored. -/
theorem test_reset_edge : outcomeOf { exState 0x3C8 0x00000004 1 with
    port := { rst := true, reqValid := true, cmd := 0x00000004, wdata := 1 } } =
    some (0, 0, [0, 1, 0xFFFFFFFFFFFFFFFF]) := by decide

/-! Elaboration: Z2 to Z7, each a change of register 0 or 1 of CAT_EX. -/

/-- CAT_EX with its first two entries changed. -/
def exConfig (f g : RegEntry → RegEntry) : Config :=
  match Config.catEx.catalog with
  | e0 :: e1 :: es => { Config.catEx with catalog := f e0 :: g e1 :: es }
  | es => { Config.catEx with catalog := es }

theorem test_config_name : configError (exConfig (fun e => { e with name := "EBX" }) id) =
    some (.unknownRegisterName 0) := by decide
theorem test_config_size : configError (exConfig (fun e => { e with fields := e.fields ++ [⟨"z", 0, 0⟩] }) id) =
    some (.invalidDefinition 0 4) := by decide
theorem test_config_start : configError (exConfig (fun e => { e with fields := ⟨"z", -1, 8⟩ :: e.fields }) id) =
    some (.invalidDefinition 0 0) := by decide
theorem test_config_width : configError (exConfig id fun e => { e with width := 65 }) = some (.badWidth 1) := by decide
theorem test_config_init : configError (exConfig id fun e => { e with init := -1 }) = some (.badInit 1) := by decide
theorem test_config_overhang : configError (exConfig (fun e => { e with fields := [⟨"z", 30, 8⟩] }) id) = none := by
  decide

/-! The assembler and the arbiter. -/

/-- V1 step 2. -/
theorem test_asm_wrrange : assembleText .catEx "WRRANGE r0, 6, 6, 0b1111" = some ⟨0x00060606, 0xF⟩ := by decide
/-- P2 step 1, with the register named. -/
theorem test_asm_names : assembleText .catEx "FSET REG EAX, byte1, 0x12" = some ⟨0x00000108, 0x12⟩ := by decide
/-- P3 step 3. -/
theorem test_asm_clrbit : assembleText .catEx "CLRBIT r2, 63" = some ⟨0x02003F04, 0⟩ := by decide
/-- H1 in its two-operand spelling. -/
theorem test_asm_rest : assembleText .catEx "RDRANGE r0, 16" = some ⟨0x00001015, 0⟩ := by decide
/-- T5. -/
theorem test_asm_negative : assembleText .catEx "RDBIT r0, -128" = some ⟨0x00008003, 0⟩ := by decide
theorem test_asm_out_of_range : assembleText .catEx "RDBIT r0, 128" = none := by decide
theorem test_asm_unknown_name : assembleText .catEx "FGET r0, nosuch" = none := by decide

theorem test_arbitrate : arbitrate [1, 0, 0, 1] [[⟨1, 0⟩], [⟨2, 0⟩, ⟨3, 0⟩]] =
    [(1, ⟨2, 0⟩), (0, ⟨1, 0⟩), (1, ⟨3, 0⟩)] := by decide

/-! Witnesses: for each statement that has hypotheses, a state and operands that meet them, clause by clause at the
ends of the ranges. -/

/-- Register 0 of CAT_EX. -/
def eax : RegEntry where
  name := "EAX"
  width := 32
  fields := [⟨"low_byte", 0, 8⟩, ⟨"byte1", 8, 8⟩, ⟨"low_half", 0, 16⟩, ⟨"overhang", 24, 16⟩]

/-- The state of the witnesses meets the invariant. -/
theorem witness_inv (cmd : Cmd) (wdata : Data) : (exState 0x3C8 cmd wdata).Inv where
  config := show configError .catEx = none by decide
  length := rfl
  bounded := by
    rintro (_ | _ | _ | r) e h
    · cases h
      exact show 0x3C8 < 2 ^ 32 by decide
    · cases h
      exact show 1 < 2 ^ 1 by decide
    · cases h
      exact show 0xFFFFFFFFFFFFFFFF < 2 ^ 64 by decide
    · cases h
  quiet := fun _ => ⟨rfl, rfl⟩
  failed := fun _ => rfl
  reserved := show (0 : BitVec 3) ≠ 4 by decide

theorem witness_DecodeOfEncode : (Instr.wrrange 255 (-128) 127).wellFormed = true := by decide
theorem witness_EncodeOfDecode : decode 0xFF7F8006 = .ok (.wrrange 255 (-128) 127) := by rfl
theorem witness_DecodeAgreesWithMatchAndMask : (⟨"FSET", 0x00000008, 0x00FF00FF⟩ : OpRow) ∈ opTable ∧
    (0xFF00FF08 : Cmd) &&& 0x00FF00FF = 0x00000008 := by decide
theorem witness_IllegalWordsExactly : configError (exState 0 0x22 0).cfg = none ∧ (exState 0 0x22 0).port.rst = false ∧
    (exState 0 0x22 0).port.reqValid = true ∧ decode (exState 0 0x22 0).port.cmd = .error .reservedZ :=
  ⟨by decide, rfl, rfl, rfl⟩
theorem witness_BytesAreLittleEndian : (cmdBytes 0x000C0605)[3]? = some 0x00 ∧
    (dataBytes 0x0123456789ABCDEF)[7]? = some 0x01 ∧ decode 0x000C0605 = .ok (.rdrange 0 6 12) ∧
    decode 0x9 = .error .reservedOpcode := ⟨by decide, by decide, rfl, rfl⟩
theorem witness_StepRunsDecodedRequest : configError (exState 0 0x000C0605 0).cfg = none ∧
    (exState 0 0x000C0605 0).port.rst = false ∧ (exState 0 0x000C0605 0).port.reqValid = true ∧
    decode (exState 0 0x000C0605 0).port.cmd = .ok (.rdrange 0 6 12) := ⟨by decide, rfl, rfl, rfl⟩
theorem witness_RequestsRunInAcceptanceOrder : configError State.reset.cfg = none ∧
    decode 0x00000304 = .ok (.wrbit 0 3) ∧
    (∃ t, exec (.wrbit 0 3) (State.reset.withRequests [⟨0x00000304, 1⟩, ⟨0x00000303, 0⟩]) = .next t) ∧
    decode 0x02000022 = .error .reservedZ :=
  ⟨by decide, rfl, ⟨_, rfl⟩, rfl⟩
theorem witness_ResetEdgeOverridesRequest : configError State.reset.cfg = none ∧
    ({ State.reset with port := { PortIn.idle with rst := true } } : State).port.rst = true ∧
    ({ State.reset with port := { PortIn.idle with rst := true } } : State).entryAt 0 = some eax := by decide
theorem witness_IdleEdgeKeepsRegisters : configError State.reset.cfg = none ∧ State.reset.port.rst = false ∧
    State.reset.port.reqValid = false := by decide
theorem witness_EveryEdgeCompletes : configError State.reset.cfg = none ∧ configError ⟨[], []⟩ = some .badCount := by
  decide
/-- Also for ReservedStatusNeverAnswered, and with `witness_inv` for StepKeepsInvariant. -/
theorem witness_StepKeepsConfiguration : configError (exState 0x3C8 0x00000304 1).cfg = none ∧
    (exState 0x3C8 0x00000304 1).x.length = (exState 0x3C8 0x00000304 1).cfg.catalog.length ∧
    ∃ t, step (exState 0x3C8 0x00000304 1) = .next t := ⟨by decide, rfl, _, rfl⟩
/-- Also for ReadAnswersWholeValue (with `witness_inv` and `witness_instantiate`, which is ResetMeetsInvariant's too), RangeBoundaries and the width clause
of every request. -/
theorem witness_WidthAnswersWidth : configError (exState 0x3C8 0 0).cfg = none ∧
    (exState 0x3C8 0 0).entryAt 0 = some eax := by decide
theorem witness_instantiate : instantiate .catEx = .ok State.reset ∧ Config.catEx.catalog[0]? = some eax := by decide
theorem witness_RdbitAnswersBit : (exState 0x3C8 0 0).entryAt 0 = some eax ∧ ((0 : Int) ≤ 31 ∧ (31 : Int) < eax.width) ∧
    ((-1 : Int) < 0) ∧ (32 : Int) ≥ eax.width := by decide
theorem witness_WrbitWritesOneBit : (exState 0 0 1).x.length = (exState 0 0 1).cfg.catalog.length ∧
    (exState 0 0 1).entryAt 0 = some eax ∧ ((0 : Int) ≤ 31 ∧ (31 : Int) < eax.width ∧ (exState 0 0 1).wdata = 1) ∧
    (exState 0 0 0).wdata = 0 ∧ (32 : Int) ≥ eax.width ∧ 2 ≤ (exState 0 0 2).wdata := by decide
theorem witness_RdrangeAnswersRange : (exState 0x3C8 0 0).entryAt 0 = some eax ∧
    ((0 : Int) ≤ 0 ∧ (32 : Int) ≤ eax.width ∧ (0 : Int) < 32) ∧ ((0 : Int) ≤ 31 ∧ (31 : Int) < 32) ∧
    (-1 : Int) < 0 ∧ (33 : Int) > eax.width ∧ (4 : Int) ≤ 4 := by decide
theorem witness_RdrestAnswersRest : (exState 0x3C8 0 0).entryAt 0 = some eax ∧
    ((0 : Int) ≤ 31 ∧ (31 : Int) < eax.width) ∧ (-1 : Int) < 0 ∧ (32 : Int) ≥ eax.width := by decide
theorem witness_WrrangeReplacesRange : (exState 0 0 15).entryAt 0 = some eax ∧
    ((0 : Int) ≤ 28 ∧ (0 : Int) < 4 ∧ (28 : Int) + 4 ≤ eax.width ∧ (exState 0 0 15).wdata < 2 ^ (4 : Int).toNat) ∧
    2 ^ (4 : Int).toNat ≤ (exState 0 0 16).wdata ∧ (-1 : Int) < 0 ∧ (0 : Int) ≤ 0 ∧
    (29 : Int) + 4 > eax.width := by decide
theorem witness_FgetAnswersField : (exState 0x1FF 0 0).entryAt 0 = some eax ∧
    (eax.fields[2]? = some ⟨"low_half", 0, 16⟩ ∧ (0 : Int) + 16 ≤ eax.width) ∧ eax.fields.length ≤ 4 ∧
    (eax.fields[3]? = some ⟨"overhang", 24, 16⟩ ∧ (24 : Int) + 16 > eax.width) := by decide
theorem witness_FsetReplacesField : configError (exState 0 0 0xFF).cfg = none ∧
    (exState 0 0 0xFF).x.length = (exState 0 0 0xFF).cfg.catalog.length ∧ (exState 0 0 0xFF).entryAt 0 = some eax ∧
    (eax.fields[0]? = some ⟨"low_byte", 0, 8⟩ ∧ (0 : Int) + 8 ≤ eax.width ∧
      (exState 0 0 0xFF).wdata < 2 ^ (8 : Int).toNat) ∧
    2 ^ (8 : Int).toNat ≤ (exState 0 0 0x100).wdata ∧ eax.fields.length ≤ 4 ∧
    (eax.fields[3]? = some ⟨"overhang", 24, 16⟩ ∧ (24 : Int) + 16 > eax.width) := by decide
theorem witness_UnknownRegisterIndex : State.reset.cfg.catalog.length ≤ (Instr.read 3).reg ∧
    (Instr.read 2).reg < State.reset.cfg.catalog.length := by decide
theorem witness_ErrorPriority : configError (exState 0 0x00002004 2).cfg = none ∧
    (exState 0 0x00002004 2).port.rst = false ∧ (exState 0 0x00002004 2).port.reqValid = true ∧
    ∃ t, step (exState 0 0x00002004 2) = .next t := ⟨by decide, rfl, rfl, _, rfl⟩
theorem witness_FailedRequestChangesNothing : (∃ t, exec (.wrbit 0 32) (exState 5 0x00002004 1) = .next t ∧
    t.rspStatus ≠ 0) ∧ ∃ t, step (exState 5 0x00002004 1) = .next t ∧ t.rspStatus ≠ 0 :=
  ⟨⟨_, rfl, by decide⟩, _, rfl, by decide⟩
theorem witness_RepeatingRequestIsIdempotent : (Instr.rdbit 0 3).writes = false ∧
    (∃ t, exec (.rdbit 0 3) (exState 8 0 0) = .next t) ∧ ∃ t, exec (.wrrange 0 0 4) (exState 8 0 5) = .next t ∧
      t.idleEdge.cfg = t.cfg ∧ t.idleEdge.x = t.x ∧ t.idleEdge.port.wdata = t.port.wdata :=
  ⟨rfl, ⟨_, rfl⟩, _, rfl, rfl, rfl, rfl⟩
theorem witness_RequestsTouchOneRegister :
    ({ exState 8 1 5 with x := [8, 0, 7] } : State).cfg = (exState 8 0 5).cfg ∧
    ({ exState 8 1 5 with x := [8, 0, 7] } : State).port.wdata = (exState 8 0 5).port.wdata ∧
    ({ exState 8 1 5 with x := [8, 0, 7] } : State).x[(Instr.wrrange 0 0 4).reg]? =
      (exState 8 0 5).x[(Instr.wrrange 0 0 4).reg]? ∧
    (∃ t, exec (.wrrange 0 0 4) (exState 8 0 5) = .next t) ∧
    ∃ t, exec (.wrrange 0 0 4) { exState 8 1 5 with x := [8, 0, 7] } = .next t :=
  ⟨rfl, rfl, rfl, ⟨_, rfl⟩, _, rfl⟩
theorem witness_SingleBitLaws : (exState 0x3C8 0 0).Inv ∧ (exState 0x3C8 0 0).entryAt 0 = some eax ∧ 31 < eax.width :=
  ⟨witness_inv 0 0, rfl, by decide⟩
theorem witness_RangeWriteReadsBack : (exState 0x3C8 0 0).Inv ∧ (exState 0x3C8 0 0).entryAt 0 = some eax ∧
    1 ≤ 4 ∧ 28 + 4 ≤ eax.width ∧ (15 : Data).toNat < 2 ^ 4 :=
  ⟨witness_inv 0 0, rfl, by decide, by decide, by decide⟩
theorem witness_RangeBoundaries : (exState 0 0 0xFF).entryAt 0 = some eax ∧ ((0 : Int) ≤ 24 ∧ (24 : Int) < eax.width) ∧
    (exState 0 0 0xFF).wdata ≤ ones (eax.width - (24 : Int).toNat) := by decide
theorem witness_FieldRequestIsRangeRequest : configError State.reset.cfg = none ∧ State.reset.entryAt 0 = some eax ∧
    eax.fields[1]? = some ⟨"byte1", 8, 8⟩ := by decide
theorem witness_OverlappingFieldsAreViews : configError (exState 0 0 0xAB).cfg = none ∧
    (exState 0 0 0xAB).x.length = (exState 0 0 0xAB).cfg.catalog.length ∧ (exState 0 0 0xAB).entryAt 0 = some eax ∧
    eax.fields[1]? = some ⟨"byte1", 8, 8⟩ ∧ eax.fields[2]? = some ⟨"low_half", 0, 16⟩ ∧ (0 : Int) + 16 ≤ eax.width ∧
    ∃ t, exec (.fset 0 1) (exState 0 0 0xAB) = .next t ∧ t.rspStatus = 0 :=
  ⟨by decide, rfl, rfl, rfl, rfl, by decide, _, rfl, rfl⟩
theorem witness_MaskFormulas : 0 ≤ 0 ∧ 0 ≤ 63 := by decide
theorem witness_StepKeepsInvariant : (exState 0x3C8 0x00000304 1).Inv ∧
    ∃ t, step (exState 0x3C8 0x00000304 1) = .next t := ⟨witness_inv _ _, _, rfl⟩
theorem witness_ReachableRegistersFitWidth : ∃ t, Reachable t ∧ t.entryAt 0 = some eax ∧ t.reg 0 = 8 :=
  ⟨_, .step _ _ (.start .catEx .reset (Request.pins ⟨0x00000304, 1⟩) [] (by decide)) rfl, rfl, rfl⟩
theorem witness_ElaborationChecksInOrder : configError ⟨[eax], []⟩ = some (.unknownRegisterName 0) ∧
    ConfigError.unknownRegisterName 0 ≠ .badCount := by decide
theorem witness_ConfigurationErrorKinds : configError ⟨[eax], []⟩ = some (.unknownRegisterName 0) ∧
    configErrorStatus (.unknownRegisterName 0) = some .unknownRegisterName ∧
    configError ⟨[⟨"EAX", 32, 0, [⟨"z", 0, 0⟩]⟩], ["EAX"]⟩ = some (.invalidDefinition 0 0) ∧
    configErrorStatus (.invalidDefinition 0 0) = some .invalidDefinition ∧
    1 ≤ (⟨[eax], []⟩ : Config).catalog.length ∧ (⟨[eax], []⟩ : Config).catalog.length ≤ 256 ∧
    ∃ e ∈ (⟨[eax], []⟩ : Config).catalog, e.name ∉ (⟨[eax], []⟩ : Config).allowedNames := by decide
theorem witness_ArbiterReachesEveryInterleaving (n : Nat) :
    ([(0, ⟨1, 0⟩)].filter (fun p : Nat × Request => p.1 == n)).map (·.2) = [[(⟨1, 0⟩ : Request)]].getD n [] := by
  cases n <;> rfl
theorem witness_PseudoInstructionsExpand : resolveReg .catEx (.named "EAX") = some 0 ∧
    Config.catEx.catalog[0]? = some eax ∧ eax.fields[3]? = some ⟨"overhang", 24, 16⟩ ∧
    (∀ q < 3, ∀ f, eax.fields[q]? = some f → f.name ≠ "overhang") ∧ (∀ f ∈ eax.fields, f.name ≠ "nosuch") ∧
    ∀ e ∈ Config.catEx.catalog, e.name ≠ "EBX" := by
  refine ⟨by decide, by decide, by decide, ?_, by decide, by decide⟩
  rintro (_ | _ | _ | q) hq f h
  · cases h; decide
  · cases h; decide
  · cases h; decide
  · omega

/-- A catalog of two entries of one name, each with two fields of one name. -/
def twins : Config where
  catalog := [⟨"T", 8, 0, [⟨"g", 0, 1⟩, ⟨"h", 0, 2⟩, ⟨"h", 2, 2⟩]⟩, ⟨"T", 16, 0, []⟩]
  allowedNames := ["T"]

theorem witness_NamesResolveToFirstIndex : configError twins = none ∧
    twins.catalog[0]? = some ⟨"T", 8, 0, [⟨"g", 0, 1⟩, ⟨"h", 0, 2⟩, ⟨"h", 2, 2⟩]⟩ ∧
    resolveReg twins (.named "T") = some 0 ∧ resolveField twins 0 (.named "h") = some 1 ∧
    resolveField twins 0 (.named "i") = none := by decide
theorem witness_AssembledLineDecodes : assemble .catEx (.wrall (.index 2) 5) = some ⟨0x02400006, 5⟩ := by decide
theorem witness_WrallSetsWholeRegister : (exState 0x3C8 0 0).Inv ∧ (exState 0x3C8 0 0).entryAt 0 = some eax ∧
    0xFFFFFFFF < 2 ^ eax.width := ⟨witness_inv 0 0, rfl, by decide⟩

end Sys2Proof.Tests
end

/-! The statements about 00_scope.md: the configuration is fixed (R7, R8), and the masks are its formulas (R11, R12). -/

namespace Sys2Proof.Machine

/-! The frame of a request, an edge and a step: the configuration and the number of registers. -/

/-- The configuration and the number of registers are as they were. -/
def SameShape (s t : State) : Prop := t.cfg = s.cfg ∧ t.x.length = s.x.length

/-- A reset builds one register per catalog entry (R20, R30). -/
theorem applyReset_length (s : State) : s.applyReset.x.length = s.cfg.catalog.length := by
  rw [State.applyReset_x, resetValues, List.length_map]

theorem execute_sameShape (s : State) (r : Nat) (rule : RegEntry → Nat → Effect) :
    SameShape s (s.execute r rule) := by
  rcases s.execute_cases r rule with ⟨-, h⟩ | ⟨e, -, h⟩
  · rw [h]; exact ⟨rfl, rfl⟩
  · rw [h]; exact ⟨s.complete_cfg r _, s.complete_length r _⟩

theorem exec_sameShape (i : Instr) (s t : State) (h : exec i s = .next t) : SameShape s t := by
  obtain ⟨rule, hrule⟩ := exec_eq_execute i
  cases (hrule s).symm.trans h
  exact execute_sameShape s i.reg (rule s.wdata)

/-- An edge is a reset edge, or it changes neither the configuration nor the number of registers. -/
theorem clockEdge_reset_or_sameShape (s t : State) (h : clockEdge s = .next t) :
    t = s.applyReset ∨ SameShape s t := by
  rcases clockEdge_cases s with ⟨-, he⟩ | ⟨-, -, i, -, he⟩ | ⟨-, -, e, -, he⟩ | ⟨-, -, he⟩
  case inl => cases he.symm.trans h; exact .inl rfl
  case inr.inl => exact .inr (exec_sameShape i s t (he.symm.trans h))
  case inr.inr.inl => cases he.symm.trans h; exact .inr ⟨rfl, rfl⟩
  case inr.inr.inr => cases he.symm.trans h; exact .inr ⟨rfl, rfl⟩

/-- A step that has a next state is an edge followed by the pins' next values. -/
theorem step_eq_next (s t : State) (h : step s = .next t) : ∃ u, clockEdge s = .next u ∧ t = u.advance := by
  rcases step_cases s with ⟨e, -, he⟩ | ⟨-, u, hu, he⟩
  · cases he.symm.trans h
  · cases he.symm.trans h; exact ⟨u, hu, rfl⟩

/-! The masks as integer formulas. -/

/-- Clearing a mask is Mathlib's bitwise difference. -/
theorem clearMask_eq_ldiff (v m : Nat) : clearMask v m = Nat.ldiff v m :=
  Nat.eq_of_testBit_eq fun i => by rw [testBit_clearMask, Nat.testBit_ldiff]

/-- R11: `~m` is the integer `-m - 1`, and `v & ~m` is the conjunction of two's complements. -/
theorem clearMask_eq_land (v m : Nat) : ((clearMask v m : Nat) : Int) = Int.land v (-(m : Int) - 1) := by
  have hnot : -(m : Int) - 1 = Int.negSucc m := by omega
  rw [clearMask_eq_ldiff, hnot]
  rfl

theorem fieldmask_eq (start size : Nat) : fieldmask start size = (2 ^ size - 1) * 2 ^ start := by
  rw [fieldmask, ones_eq, Nat.shiftLeft_eq]

theorem bits_eq (v hi lo : Nat) : bits v hi lo = v / 2 ^ lo % 2 ^ (hi - lo + 1) := by
  rw [bits, and_ones, Nat.shiftRight_eq_div_pow]

end Sys2Proof.Machine

namespace Sys2Proof.Proofs

open Sys2Proof.Machine

/-- Settles O12: a reset edge builds one value per catalog entry, and every other edge keeps the shape of the state. -/
theorem stepKeepsConfiguration : Obligations.StepKeepsConfiguration := by
  intro s t _ hstep
  obtain ⟨u, hedge, rfl⟩ := step_eq_next s t hstep
  rcases clockEdge_reset_or_sameShape s u hedge with rfl | ⟨hcfg, hlen⟩
  · exact ⟨rfl, fun hlen => (applyReset_length s).trans hlen.symm⟩
  · exact ⟨hcfg, fun _ => hlen⟩

/-- Settles O35, one formula at a time. -/
theorem maskFormulas : Obligations.MaskFormulas :=
  ⟨clearMask_eq_land, ones_eq, fieldmask_eq, fun v hi lo _ => bits_eq v hi lo⟩

/-- Settles O40: CAT_EX passes elaboration, and its initial values masked to their widths are those of Z1. -/
theorem resetOfTestCatalog : Obligations.ResetOfTestCatalog := by
  have hvalues : resetValues .catEx = [0, 1, 0xFFFFFFFFFFFFFFFF] := by decide
  have hvalid : configError .catEx = none := by decide
  refine ⟨hvalues, ?_, rfl⟩
  simp [instantiate, hvalid, State.reset]

end Sys2Proof.Proofs

/-! The statements about 10_state.md: the invariant of the machine (R21), the independence of registers (R22) and the
reset values (R30). -/

namespace Sys2Proof.Machine

/-! The rule of each request. -/

/-- The rule a request runs after the register check, on the write data `v`, the entry `e` and the value `x` of the
register it names. -/
def ruleOf (i : Instr) (v : Nat) (e : RegEntry) (x : Nat) : Effect :=
  match i with
  | .width _ => ruleWidth e x
  | .read _ => ruleRead e x
  | .rdbit _ bit => ruleRdbit bit e x
  | .wrbit _ bit => ruleWrbit bit v e x
  | .rdrange _ start stop => ruleRdrange start stop e x
  | .rdrest _ start => ruleRdrest start e x
  | .wrrange _ start size => ruleWrrange start size v e x
  | .fget _ k => ruleFget k e x
  | .fset _ k => ruleFset k v e x

/-- What `exec` does, with the rule named; `exec_eq_execute` says only that there is one. -/
theorem exec_eq_execute_ruleOf (i : Instr) (s : State) :
    exec i s = .next (s.execute i.reg (ruleOf i s.wdata)) := by
  cases i <;> rfl

/-- The ends of a rule that keep the invariant on the entry `e`: an error is not the reserved one (R200, K3), and a new
value fits the width (R21). -/
def Effect.Sound (e : RegEntry) : Effect → Prop
  | .fail st => st ≠ .invalidDefinition
  | .answer _ => True
  | .update v => v < 2 ^ e.width

/-- Past the bounds check, WRBIT touches a bit inside the width (R103). -/
theorem ruleWrbit_sound (bit : Int) (v : Nat) (e : RegEntry) (x : Nat) (hx : x < 2 ^ e.width) :
    (ruleWrbit bit v e x).Sound e := by
  cases hb : bitOutside e.width bit with
  | true => simp [ruleWrbit, hb, Effect.Sound]
  | false =>
    have hin := (bitOutside_eq_false e.width bit).mp hb
    have hset : setBit x bit < 2 ^ e.width := setBit_lt x e.width bit hx (by omega)
    have hclear : clearBit x bit < 2 ^ e.width := clearBit_lt x e.width bit hx
    simp only [ruleWrbit, hb, Bool.false_eq_true, if_false]
    split
    · simp [Effect.Sound]
    · split
      · exact hset
      · exact hclear

/-- Past the bounds check, WRRANGE replaces bits inside the width (R108). -/
theorem ruleWrrange_sound (start size : Int) (v : Nat) (e : RegEntry) (x : Nat) (hx : x < 2 ^ e.width) :
    (ruleWrrange start size v e x).Sound e := by
  cases hs : spanOutside e.width start size with
  | true => simp [ruleWrrange, hs, Effect.Sound]
  | false =>
    have hin := (spanOutside_eq_false e.width start size).mp hs
    have hnew : replaceBits x start size v < 2 ^ e.width := replaceBits_lt x e.width start size v hx (by omega)
    simp only [ruleWrrange, hs, Bool.false_eq_true, if_false]
    split
    · simp [Effect.Sound]
    · exact hnew

/-- FSET checks only the upper end of the field (R152); that a field starts at 0 or above and has a positive size is
what elaboration has checked (R150). -/
theorem ruleFset_sound (k v : Nat) (e : RegEntry) (x : Nat) (hf : ∀ f ∈ e.fields, 0 ≤ f.start ∧ 1 ≤ f.size)
    (hx : x < 2 ^ e.width) : (ruleFset k v e x).Sound e := by
  cases hk : e.fields[k]? with
  | none => simp [ruleFset, hk, Effect.Sound]
  | some f =>
    obtain ⟨hstart, hsize⟩ := hf f (List.mem_of_getElem? hk)
    cases hs : fieldOutside e.width f with
    | true => simp [ruleFset, hk, hs, Effect.Sound]
    | false =>
      have hin := (fieldOutside_eq_false e.width f).mp hs
      have hnew : replaceBits x f.start f.size v < 2 ^ e.width :=
        replaceBits_lt x e.width f.start f.size v hx (by omega)
      simp only [ruleFset, hk, hs, Bool.false_eq_true, if_false]
      split
      · simp [Effect.Sound]
      · exact hnew

/-- Every rule ends soundly on an entry elaboration accepts and a value that fits. The requests that do not write can
only fail or answer, whatever the value. -/
theorem ruleOf_sound (i : Instr) (v : Nat) (e : RegEntry) (x : Nat) (hf : ∀ f ∈ e.fields, 0 ≤ f.start ∧ 1 ≤ f.size)
    (hx : x < 2 ^ e.width) : (ruleOf i v e x).Sound e := by
  cases i with
  | width r | read r => trivial
  | rdbit r bit => simp only [ruleOf, ruleRdbit]; split <;> simp [Effect.Sound]
  | rdrange r start stop => simp only [ruleOf, ruleRdrange]; split <;> simp [Effect.Sound]
  | rdrest r start => simp only [ruleOf, ruleRdrest]; split <;> simp [Effect.Sound]
  | fget r k =>
    simp only [ruleOf, ruleFget]
    split
    · simp [Effect.Sound]
    · split <;> simp [Effect.Sound]
  | wrbit r bit => exact ruleWrbit_sound bit v e x hx
  | wrrange r start size => exact ruleWrrange_sound start size v e x hx
  | fset r k => exact ruleFset_sound k v e x hf hx

/-! The two halves of the invariant: the registers and the response pins. -/

/-- The half of the invariant about the registers (R20, R21). -/
structure State.RegistersFit (s : State) : Prop where
  length : s.x.length = s.cfg.catalog.length
  bounded : ∀ r e, s.entryAt r = some e → s.reg r < 2 ^ e.width

/-- The half of the invariant about the response pins (R230, R204, K3). -/
structure State.ResponseOk (s : State) : Prop where
  quiet : s.rspValid = false → s.rspStatus = 0 ∧ s.rspRdata = 0
  failed : s.rspStatus ≠ 0 → s.rspRdata = 0
  reserved : s.rspStatus ≠ Status.code .invalidDefinition

theorem State.inv_iff (s : State) : s.Inv ↔ configError s.cfg = none ∧ s.RegistersFit ∧ s.ResponseOk :=
  ⟨fun ⟨config, length, bounded, quiet, failed, reserved⟩ => ⟨config, ⟨length, bounded⟩, quiet, failed, reserved⟩,
   fun ⟨config, ⟨length, bounded⟩, quiet, failed, reserved⟩ => ⟨config, length, bounded, quiet, failed, reserved⟩⟩

/-- The invariant says nothing of the pins. -/
theorem State.Inv.withPins {s : State} (h : s.Inv) (port : PortIn) (later : List PortIn) :
    ({ s with port := port, later := later } : State).Inv :=
  ⟨h.config, h.length, h.bounded, h.quiet, h.failed, h.reserved⟩

/-- A write that fits the entry's width keeps the register half. -/
theorem State.RegistersFit.setReg {s : State} (h : s.RegistersFit) {r : Nat} {e : RegEntry}
    (he : s.entryAt r = some e) {v : Nat} (hv : v < 2 ^ e.width) : (s.setReg r v).RegistersFit where
  length := by simpa using h.length
  bounded q e' he' := by
    have he' : s.entryAt q = some e' := he'
    rw [State.setReg_reg]
    split
    case isTrue hq =>
      obtain ⟨rfl, -⟩ := hq
      cases he.symm.trans he'
      exact hv
    case isFalse => exact h.bounded q e' he'

theorem State.RegistersFit.complete {s : State} (h : s.RegistersFit) {r : Nat} {e : RegEntry}
    (he : s.entryAt r = some e) (f : Effect) (hf : f.Sound e) : (s.complete r f).RegistersFit := by
  cases f with
  | fail st | answer v => exact ⟨h.length, h.bounded⟩
  | update v =>
    have hset := h.setReg he hf
    exact ⟨hset.length, hset.bounded⟩

/-- Reset values fit: each is masked to its width (R30). -/
theorem reg_of_resetValues (s : State) (hx : s.x = resetValues s.cfg) (r : Nat) (e : RegEntry)
    (he : s.entryAt r = some e) : s.reg r = resetValue e := by
  have he : s.cfg.catalog[r]? = some e := he
  simp [State.reg, hx, resetValues, List.getD_eq_getElem?_getD, he]

theorem registersFit_of_resetValues (s : State) (hx : s.x = resetValues s.cfg) : s.RegistersFit where
  length := by rw [hx, resetValues, List.length_map]
  bounded r e he := by
    rw [reg_of_resetValues s hx r e he]
    exact resetValue_lt e

/-- Pins that show status 0 and no read data meet the response half, with or without a response. -/
theorem responseOk_of_zero (s : State) (hst : s.rspStatus = 0) (hd : s.rspRdata = 0) : s.ResponseOk where
  quiet _ := ⟨hst, hd⟩
  failed _ := hd
  reserved := by rw [hst]; decide

theorem respond_ok_responseOk (s : State) (d : Nat) : (s.respond .ok d).ResponseOk where
  quiet := by simp
  failed h := absurd rfl h
  reserved := show (0 : BitVec 3) ≠ 4 by decide

/-- Only the reserved status has code 4 (R200). -/
theorem code_ne_reserved (st : Status) (h : st ≠ .invalidDefinition) : st.code ≠ Status.code .invalidDefinition := by
  cases st
  case invalidDefinition => exact absurd rfl h
  all_goals decide

theorem raise_responseOk (s : State) (st : Status) (h : st ≠ .invalidDefinition) : (s.raise st).ResponseOk where
  quiet := by simp
  failed _ := rfl
  reserved := code_ne_reserved st h

theorem complete_responseOk (s : State) (r : Nat) (e : RegEntry) (f : Effect) (hf : f.Sound e) :
    (s.complete r f).ResponseOk := by
  cases f with
  | fail st => exact raise_responseOk s st hf
  | answer v => exact respond_ok_responseOk s v
  | update v => exact respond_ok_responseOk (s.setReg r v) 0

/-! The invariant through each operation, and along every run. -/

theorem State.Inv.raise {s : State} (h : s.Inv) (st : Status) (hst : st ≠ .invalidDefinition) : (s.raise st).Inv :=
  (s.raise st).inv_iff.mpr ⟨h.config, ⟨h.length, h.bounded⟩, raise_responseOk s st hst⟩

/-- A request keeps the invariant: its index is refused, or its rule ends soundly on the entry it names. -/
theorem State.Inv.exec {s t : State} (h : s.Inv) (i : Instr) (ht : Machine.exec i s = .next t) : t.Inv := by
  cases (exec_eq_execute_ruleOf i s).symm.trans ht
  rcases s.execute_cases i.reg (ruleOf i s.wdata) with ⟨-, hx⟩ | ⟨e, he, hx⟩
  · rw [hx]
    exact h.raise .unknownRegisterName (by decide)
  · obtain ⟨-, -, -, -, hfields⟩ := entry_of_valid s.cfg i.reg e h.config he
    have hsound := ruleOf_sound i s.wdata e (s.reg i.reg) hfields (h.bounded i.reg e he)
    have hfit : s.RegistersFit := ⟨h.length, h.bounded⟩
    have hconfig : configError (s.complete i.reg (ruleOf i s.wdata e (s.reg i.reg))).cfg = none := by
      rw [State.complete_cfg, h.config]
    rw [hx]
    exact (State.inv_iff _).mpr
      ⟨hconfig, hfit.complete he _ hsound, complete_responseOk s i.reg e _ hsound⟩

/-- A reset edge establishes the invariant from any state of an accepted configuration (R230, R231). -/
theorem applyReset_inv (s : State) (h : configError s.cfg = none) : s.applyReset.Inv :=
  s.applyReset.inv_iff.mpr
    ⟨h, registersFit_of_resetValues s.applyReset rfl, responseOk_of_zero s.applyReset rfl rfl⟩

theorem State.Inv.idleEdge {s : State} (h : s.Inv) : s.idleEdge.Inv :=
  s.idleEdge.inv_iff.mpr ⟨h.config, ⟨h.length, h.bounded⟩, responseOk_of_zero s.idleEdge rfl rfl⟩

theorem State.Inv.clockEdge {s t : State} (h : s.Inv) (ht : Machine.clockEdge s = .next t) : t.Inv := by
  rcases clockEdge_cases s with ⟨-, he⟩ | ⟨-, -, i, -, he⟩ | ⟨-, -, e, -, he⟩ | ⟨-, -, he⟩
  case inl => cases he.symm.trans ht; exact applyReset_inv s h.config
  case inr.inl => exact h.exec i (he.symm.trans ht)
  case inr.inr.inl => cases he.symm.trans ht; exact h.raise .illegalCommand (by decide)
  case inr.inr.inr => cases he.symm.trans ht; exact h.idleEdge

theorem State.Inv.step {s t : State} (h : s.Inv) (ht : Machine.step s = .next t) : t.Inv := by
  obtain ⟨u, hedge, rfl⟩ := step_eq_next s t ht
  exact (h.clockEdge hedge).withPins _ _

/-- What elaboration gives for an accepted configuration is its reset state, and nothing else. -/
theorem instantiate_eq_ok (cfg : Config) (s : State) :
    instantiate cfg = .ok s ↔ configError cfg = none ∧ s = State.ofConfig cfg := by
  cases h : configError cfg with
  | some e => simp [instantiate, h]
  | none => simp [instantiate, h, eq_comm]

theorem ofConfig_inv (cfg : Config) (h : configError cfg = none) : (State.ofConfig cfg).Inv :=
  (State.ofConfig cfg).inv_iff.mpr
    ⟨h, registersFit_of_resetValues (.ofConfig cfg) rfl, responseOk_of_zero (.ofConfig cfg) rfl rfl⟩

theorem instantiate_inv (cfg : Config) (s : State) (h : instantiate cfg = .ok s) : s.Inv := by
  obtain ⟨hvalid, rfl⟩ := (instantiate_eq_ok cfg s).mp h
  exact ofConfig_inv cfg hvalid

/-- The invariant holds in every state of every run. -/
theorem Reachable.inv {s : State} (h : Reachable s) : s.Inv := by
  induction h with
  | start cfg s port later h => exact (instantiate_inv cfg s h).withPins port later
  | step s t _ ht ih => exact ih.step ht

/-! The independence of registers. -/

theorem execute_elsewhere (s : State) (r q : Nat) (rule : RegEntry → Nat → Effect) (h : q ≠ r) :
    (s.execute r rule).x[q]? = s.x[q]? := by
  rcases s.execute_cases r rule with ⟨-, hx⟩ | ⟨e, -, hx⟩
  · rw [hx, State.raise_x]
  · rw [hx, s.complete_elsewhere r q _ h]

theorem execute_samePins (s : State) (r : Nat) (rule : RegEntry → Nat → Effect) : SamePins s (s.execute r rule) := by
  rcases s.execute_cases r rule with ⟨-, hx⟩ | ⟨e, -, hx⟩
  · rw [hx]; exact ⟨rfl, rfl⟩
  · rw [hx]; exact ⟨s.complete_port r _, s.complete_later r _⟩

/-- Two states show the same response and hold the same value in register `r`. -/
def SameResult (r : Nat) (t t' : State) : Prop :=
  t'.x[r]? = t.x[r]? ∧ t'.rspValid = t.rspValid ∧ t'.rspStatus = t.rspStatus ∧ t'.rspRdata = t.rspRdata

theorem complete_sameResult (s s' : State) (r : Nat) (f : Effect) (hx : s'.x[r]? = s.x[r]?) :
    SameResult r (s.complete r f) (s'.complete r f) := by
  cases f with
  | fail st | answer v => exact ⟨hx, rfl, rfl, rfl⟩
  | update v =>
    have hset : (s'.x.set r v)[r]? = (s.x.set r v)[r]? := by
      rw [List.getElem?_set_self', List.getElem?_set_self', hx]
    exact ⟨hset, rfl, rfl, rfl⟩

/-- The common step sees the state only through the configuration and the named register. -/
theorem execute_sameResult (s s' : State) (r : Nat) (rule : RegEntry → Nat → Effect) (hcfg : s'.cfg = s.cfg)
    (hx : s'.x[r]? = s.x[r]?) : SameResult r (s.execute r rule) (s'.execute r rule) := by
  have hentry : s'.entryAt r = s.entryAt r := by rw [State.entryAt, State.entryAt, hcfg]
  have hreg : s'.reg r = s.reg r := by
    rw [State.reg, State.reg, List.getD_eq_getElem?_getD, List.getD_eq_getElem?_getD, hx]
  rcases s.execute_cases r rule with ⟨hnone, hs⟩ | ⟨e, hsome, hs⟩
  · rw [hs, s'.execute_of_none r rule (hentry.trans hnone)]
    exact ⟨hx, rfl, rfl, rfl⟩
  · rw [hs, s'.execute_of_entry r rule e (hentry.trans hsome), hreg]
    exact complete_sameResult s s' r _ hx

end Sys2Proof.Machine

namespace Sys2Proof.Proofs

open Sys2Proof.Machine

/-- Settles O36: an edge of each kind keeps the invariant, and moving the pins on does not touch it. -/
theorem stepKeepsInvariant : Obligations.StepKeepsInvariant := fun _ _ hinv hstep => hinv.step hstep

/-- Settles O37: reset values fit their widths, the response pins start at 0, and the input pins do not matter. -/
theorem resetMeetsInvariant : Obligations.ResetMeetsInvariant :=
  ⟨fun cfg s port later h => (instantiate_inv cfg s h).withPins port later, ofConfig_inv .catEx (by decide)⟩

/-- Settles O38, from the invariant of every run. -/
theorem reachableRegistersFitWidth : Obligations.ReachableRegistersFitWidth := by
  intro s hs
  have hinv := hs.inv
  exact ⟨hinv.length, fun r e he => Nat.le_sub_one_of_lt (hinv.bounded r e he)⟩

/-- Settles O39: an accepted configuration starts in `State.ofConfig`, and elaboration has checked its initial values. -/
theorem instanceStartsAtResetValues : Obligations.InstanceStartsAtResetValues := by
  refine ⟨fun cfg s h => ?_, fun _ _ _ => rfl⟩
  obtain ⟨hvalid, rfl⟩ := (instantiate_eq_ok cfg s).mp h
  refine ⟨rfl, (ofConfig_inv cfg hvalid).length, fun r e he => ?_⟩
  obtain ⟨-, -, hinit, -, -⟩ := entry_of_valid cfg r e hvalid he
  exact ⟨hinit, reg_of_resetValues (.ofConfig cfg) rfl r e he⟩

/-- Settles O29: every request is the common step on the register it names, with a rule that sees only the write
data besides what the common step hands it. -/
theorem requestsTouchOneRegister : Obligations.RequestsTouchOneRegister := by
  constructor
  · intro i s t h
    obtain ⟨hcfg, hlen⟩ := exec_sameShape i s t h
    cases (exec_eq_execute_ruleOf i s).symm.trans h
    exact ⟨⟨hcfg, hlen, fun q hq => execute_elsewhere s i.reg q _ hq⟩, execute_samePins s i.reg _⟩
  · intro i s s' t t' hcfg hwdata hx h h'
    have hw : s'.wdata = s.wdata := by rw [State.wdata, State.wdata, hwdata]
    cases (exec_eq_execute_ruleOf i s).symm.trans h
    cases (exec_eq_execute_ruleOf i s').symm.trans h'
    rw [hw]
    exact execute_sameResult s s' i.reg _ hcfg hx

end Sys2Proof.Proofs

/-! The statements about 20_memory.md: words as bytes (R43), the repetition of a request (R47) and the order of requests
at the one port (R48). -/

namespace Sys2Proof.Machine

/-! Words as bytes (R43). -/

/-- A slice of a word is the slice of its value (R12). -/
theorem toNat_extractLsb'_eq_bits {m : Nat} (w : BitVec m) (lo k : Nat) :
    (w.extractLsb' lo (k + 1)).toNat = bits w.toNat (lo + k) lo := by
  rw [BitVec.extractLsb'_toNat, bits_eq, Nat.shiftRight_eq_div_pow, Nat.add_sub_cancel_left]

/-- The lowest `n` bytes of a word of any width, lowest first: what `cmdBytes` and `dataBytes` write out. -/
def lowBytes {m : Nat} (w : BitVec m) (n : Nat) : List Byte :=
  (List.range n).map fun j => w.extractLsb' (8 * j) 8

theorem cmdBytes_eq_lowBytes (w : Cmd) : cmdBytes w = lowBytes w 4 := rfl

theorem dataBytes_eq_lowBytes (w : Data) : dataBytes w = lowBytes w 8 := rfl

theorem toNat_of_lowBytes {m : Nat} (w : BitVec m) (n j : Nat) (b : Byte) (h : (lowBytes w n)[j]? = some b) :
    b.toNat = bits w.toNat (8 * j + 7) (8 * j) := by
  have hb : j < n ∧ w.extractLsb' (8 * j) 8 = b := by
    simpa [lowBytes, List.getElem?_eq_some_iff] using h
  obtain ⟨-, rfl⟩ := hb
  exact toNat_extractLsb'_eq_bits w (8 * j) 7

/-- A stream that begins with the bytes of a word gives what the word decodes to, and the bytes after it (R43, R70). -/
theorem decodeBytes_cmdBytes (w : Cmd) (rest : List Byte) :
    decodeBytes (cmdBytes w ++ rest) = (decode w).toOption.map fun i => (i, rest) := by
  have hword : cmdOfBytes (w.extractLsb' 0 8) (w.extractLsb' 8 8) (w.extractLsb' 16 8) (w.extractLsb' 24 8) = w :=
    (eq_four_bytes w).symm
  simp only [cmdBytes, List.cons_append, List.nil_append, decodeBytes, hword]
  cases decode w <;> rfl

/-! The requests presented back to back (R48, R234). -/

/-- Once the request at this edge is taken, the pins go on to the requests that follow it. -/
theorem advance_eq_withRequests (t : State) (qs : List Request) (h : t.later = qs.map Request.pins) :
    t.advance = t.withRequests qs := by
  rw [State.advance, State.withRequests, h]

@[simp] theorem withRequests_cons_cmd (s : State) (q : Request) (qs : List Request) :
    (s.withRequests (q :: qs)).port.cmd = q.cmd := rfl

/-- An edge with a request on the pins and no reset accepts the request. -/
theorem step_of_request (s : State) (hcfg : configError s.cfg = none) (hrst : s.port.rst = false)
    (hvalid : s.port.reqValid = true) : step s = onNext State.advance (acceptRequest s) := by
  simp [step, clockEdge, hcfg, hrst, hvalid]

theorem step_withRequests_cons (s : State) (q : Request) (qs : List Request) (hcfg : configError s.cfg = none) :
    step (s.withRequests (q :: qs)) = onNext State.advance (acceptRequest (s.withRequests (q :: qs))) :=
  step_of_request (s.withRequests (q :: qs)) hcfg rfl rfl

theorem acceptRequest_of_ok (s : State) (i : Instr) (h : decode s.port.cmd = .ok i) : acceptRequest s = exec i s := by
  simp [acceptRequest, h]

theorem acceptRequest_of_error (s : State) (e : Illegal) (h : decode s.port.cmd = .error e) :
    acceptRequest s = .next (s.raise .illegalCommand) := by
  simp [acceptRequest, h]

theorem exec_samePins (i : Instr) (s t : State) (h : exec i s = .next t) : SamePins s t := by
  cases (exec_eq_execute_ruleOf i s).symm.trans h
  exact execute_samePins s i.reg _

/-! The requests that write nothing (R23, R47). -/

/-- The rule of a request that is no write ends in no new value. -/
theorem ruleOf_ne_update (i : Instr) (v : Nat) (e : RegEntry) (x y : Nat) (h : i.writes = false) :
    ruleOf i v e x ≠ .update y := by
  cases i with
  | wrbit r bit | wrrange r start size | fset r k => cases h
  | width r | read r => exact Effect.noConfusion
  | rdbit r bit => simp only [ruleOf, ruleRdbit]; split <;> exact Effect.noConfusion
  | rdrange r start stop => simp only [ruleOf, ruleRdrange]; split <;> exact Effect.noConfusion
  | rdrest r start => simp only [ruleOf, ruleRdrest]; split <;> exact Effect.noConfusion
  | fget r k =>
    simp only [ruleOf, ruleFget]
    split
    · exact Effect.noConfusion
    · split <;> exact Effect.noConfusion

theorem complete_nothingWritten (s : State) (r : Nat) (f : Effect) (h : ∀ y, f ≠ .update y) :
    NothingWritten s (s.complete r f) := by
  cases f with
  | fail st | answer v => exact ⟨rfl, rfl, rfl, rfl⟩
  | update v => exact absurd rfl (h v)

theorem execute_nothingWritten (s : State) (r : Nat) (rule : RegEntry → Nat → Effect)
    (h : ∀ e x y, rule e x ≠ .update y) : NothingWritten s (s.execute r rule) := by
  rcases s.execute_cases r rule with ⟨-, hx⟩ | ⟨e, -, hx⟩
  · rw [hx]; exact ⟨rfl, rfl, rfl, rfl⟩
  · rw [hx]; exact complete_nothingWritten s r _ (h e (s.reg r))

/-! A request done twice (R47). Every write puts given bits in given places, so writing again changes nothing. -/

theorem setBit_setBit (x : Nat) (bit : Int) : setBit (setBit x bit) bit = setBit x bit :=
  Nat.eq_of_testBit_eq fun j => by simp

theorem clearBit_clearBit (x : Nat) (bit : Int) : clearBit (clearBit x bit) bit = clearBit x bit :=
  Nat.eq_of_testBit_eq fun j => by simp

theorem replaceBits_replaceBits (x : Nat) (start size : Int) (v : Nat) :
    replaceBits (replaceBits x start size v) start size v = replaceBits x start size v :=
  Nat.eq_of_testBit_eq fun j => by
    simp only [testBit_replaceBits]
    split <;> rfl

/-- What the end of a rule leaves in a register that holds `x`. -/
def Effect.leaves (x : Nat) : Effect → Nat
  | .fail _ => x
  | .answer _ => x
  | .update v => v

/-- A rule that ends the same way on the value it leaves behind. -/
def Repeats (rule : RegEntry → Nat → Effect) : Prop := ∀ e x, rule e ((rule e x).leaves x) = rule e x

theorem ruleWrbit_repeats (bit : Int) (v : Nat) : Repeats (ruleWrbit bit v) := by
  intro e x
  unfold ruleWrbit
  split
  · rfl
  · split
    · rfl
    · split
      · exact congrArg Effect.update (setBit_setBit x bit)
      · exact congrArg Effect.update (clearBit_clearBit x bit)

theorem ruleWrrange_repeats (start size : Int) (v : Nat) : Repeats (ruleWrrange start size v) := by
  intro e x
  unfold ruleWrrange
  split
  · rfl
  · split
    · rfl
    · exact congrArg Effect.update (replaceBits_replaceBits x start size v)

theorem ruleFset_repeats (k v : Nat) : Repeats (ruleFset k v) := by
  intro e x
  cases hfield : e.fields[k]? with
  | none => simp only [ruleFset, hfield]
  | some f =>
    simp only [ruleFset, hfield]
    split
    · rfl
    · split
      · rfl
      · exact congrArg Effect.update (replaceBits_replaceBits x f.start f.size v)

/-- An end that writes nothing leaves the value the rule has seen. -/
theorem leaves_of_ne_update (f : Effect) (x : Nat) (h : ∀ y, f ≠ .update y) : f.leaves x = x := by
  cases f with
  | fail st | answer v => rfl
  | update v => exact absurd rfl (h v)

/-- The rule of every request repeats: a read leaves the value it has seen, and each of the three writes is done over
again with the same bits. -/
theorem ruleOf_repeats (i : Instr) (v : Nat) : Repeats (ruleOf i v) := by
  cases hw : i.writes with
  | false =>
    intro e x
    rw [leaves_of_ne_update _ x fun y => ruleOf_ne_update i v e x y hw]
  | true =>
    cases i with
    | wrbit r bit => exact ruleWrbit_repeats bit v
    | wrrange r start size => exact ruleWrrange_repeats start size v
    | fset r k => exact ruleFset_repeats k v
    | width | read | rdbit | rdrange | rdrest | fget => cases hw

/-- Two states hold the same registers and show the same response. -/
def SameAnswer (t v : State) : Prop :=
  v.x = t.x ∧ v.rspValid = t.rspValid ∧ v.rspStatus = t.rspStatus ∧ v.rspRdata = t.rspRdata

/-- The register named holds what the end leaves, or is no register of the list and reads as before (log 7). -/
theorem complete_reg (s : State) (r : Nat) (f : Effect) :
    (s.complete r f).reg r = f.leaves (s.reg r) ∨ (s.complete r f).reg r = s.reg r := by
  cases f with
  | fail st | answer v => exact .inl rfl
  | update v =>
    rw [State.complete_update, State.respond_reg, State.setReg_reg]
    split
    · exact .inl rfl
    · exact .inr rfl

/-- The same end on the registers it left leaves them as they are and answers the same. -/
theorem complete_again (s u : State) (r : Nat) (f : Effect) (hx : u.x = (s.complete r f).x) :
    SameAnswer (s.complete r f) (u.complete r f) := by
  cases f with
  | fail st | answer v => exact ⟨hx, rfl, rfl, rfl⟩
  | update v =>
    have hset : u.x.set r v = s.x.set r v := by
      rw [hx, State.complete_update, State.respond_x, State.setReg_x, List.set_set]
    exact ⟨hset, rfl, rfl, rfl⟩

/-- The common step with a rule that repeats, done again on the registers it left. -/
theorem execute_again (s u : State) (r : Nat) (rule : RegEntry → Nat → Effect) (hrule : Repeats rule)
    (hcfg : u.cfg = s.cfg) (hx : u.x = (s.execute r rule).x) :
    SameAnswer (s.execute r rule) (u.execute r rule) := by
  have hentry : u.entryAt r = s.entryAt r := by rw [State.entryAt, State.entryAt, hcfg]
  rcases s.execute_cases r rule with ⟨hnone, hs⟩ | ⟨e, hsome, hs⟩
  · rw [hs] at hx ⊢
    rw [u.execute_of_none r rule (hentry.trans hnone)]
    exact ⟨hx, rfl, rfl, rfl⟩
  · rw [hs] at hx ⊢
    have hreg : u.reg r = (s.complete r (rule e (s.reg r))).reg r := by rw [State.reg, State.reg, hx]
    have hend : rule e (u.reg r) = rule e (s.reg r) := by
      rw [hreg]
      rcases complete_reg s r (rule e (s.reg r)) with hleft | hkept
      · rw [hleft, hrule]
      · rw [hkept]
    rw [u.execute_of_entry r rule e (hentry.trans hsome), hend]
    exact complete_again s u r _ hx

/-! The arbiter (R48, D25). -/

theorem takeFrom_succ (n : Nat) (first : List Request) (rest : List (List Request)) :
    takeFrom (n + 1) (first :: rest) = (takeFrom n rest).map fun p => (p.1, first :: p.2) := by
  rw [takeFrom]
  cases takeFrom n rest <;> rfl

/-- A turn takes the first request of the requester's queue and leaves every other queue as it is. -/
theorem takeFrom_eq_some_iff (n : Nat) (queues queues' : List (List Request)) (q : Request) :
    takeFrom n queues = some (q, queues') ↔ ∃ qs, queues[n]? = some (q :: qs) ∧ queues' = queues.set n qs := by
  induction queues generalizing n queues' with
  | nil => simp [takeFrom]
  | cons first rest ih =>
    cases n with
    | zero => cases first <;> simp [takeFrom, eq_comm]
    | succ n =>
      rw [takeFrom_succ]
      simp only [Option.map_eq_some_iff, Prod.exists, Prod.mk.injEq, List.getElem?_cons_succ, List.set_cons_succ]
      constructor
      · rintro ⟨q, rest', htake, rfl, rfl⟩
        obtain ⟨qs, hqueue, rfl⟩ := (ih n rest').mp htake
        exact ⟨qs, hqueue, rfl⟩
      · rintro ⟨qs, hqueue, rfl⟩
        exact ⟨q, rest.set n qs, (ih n _).mpr ⟨qs, hqueue, rfl⟩, rfl, rfl⟩

/-- The requests of requester `n` in a run, in its order. -/
def servedOf (n : Nat) (run : List (Nat × Request)) : List Request :=
  (run.filter fun p => p.1 == n).map (·.2)

@[simp] theorem servedOf_cons_self (n : Nat) (q : Request) (run : List (Nat × Request)) :
    servedOf n ((n, q) :: run) = q :: servedOf n run := by
  simp [servedOf]

theorem servedOf_cons_ne (n m : Nat) (q : Request) (run : List (Nat × Request)) (h : m ≠ n) :
    servedOf n ((m, q) :: run) = servedOf n run := by
  simp [servedOf, h]

/-- The requester whose turn it is has the head of its queue served, and no turn changes another's queue. -/
theorem servedOf_arbitrate_prefix (order : List Nat) (queues : List (List Request)) (n : Nat) :
    servedOf n (arbitrate order queues) <+: queues.getD n [] := by
  induction order generalizing queues with
  | nil => exact List.nil_prefix
  | cons turn order ih =>
    cases htake : takeFrom turn queues with
    | none => simpa only [arbitrate, htake] using ih queues
    | some taken =>
      obtain ⟨q, queues'⟩ := taken
      obtain ⟨qs, hqueue, rfl⟩ := (takeFrom_eq_some_iff turn queues queues' q).mp htake
      have hrun : arbitrate (turn :: order) queues = (turn, q) :: arbitrate order (queues.set turn qs) := by
        simp only [arbitrate, htake]
      have hlater := ih (queues.set turn qs)
      rw [hrun]
      by_cases hturn : turn = n
      · subst hturn
        have hnow : queues.getD turn [] = q :: (queues.set turn qs).getD turn [] := by
          obtain ⟨hlt, hhead⟩ := List.getElem?_eq_some_iff.mp hqueue
          simp [hlt, hhead]
        rw [servedOf_cons_self, hnow]
        exact (List.prefix_cons_inj q).mpr hlater
      · have hsame : (queues.set turn qs).getD n [] = queues.getD n [] := by
          simp [hturn]
        rw [servedOf_cons_ne n turn q _ hturn, ← hsame]
        exact hlater

end Sys2Proof.Machine

namespace Sys2Proof.Proofs

open Sys2Proof.Machine

/-- Settles O6: both byte lists are the low bytes of their word, and the four bytes of a command word put together are
the word again. -/
theorem bytesAreLittleEndian : Obligations.BytesAreLittleEndian := by
  refine ⟨fun w j b h => ?_, fun w j b h => ?_, fun w i rest h => ?_, fun w e rest h => ?_, fun _ => rfl, fun _ => rfl⟩
  · rw [cmdBytes_eq_lowBytes] at h
    exact toNat_of_lowBytes w 4 j b h
  · rw [dataBytes_eq_lowBytes] at h
    exact toNat_of_lowBytes w 8 j b h
  · rw [decodeBytes_cmdBytes, h, Except.toOption, Option.map_some]
  · rw [decodeBytes_cmdBytes, h, Except.toOption, Option.map_none]

/-- Settles O8: the edge accepts the first request, which leaves the later pins alone, and then the pins move on. -/
theorem requestsRunInAcceptanceOrder : Obligations.RequestsRunInAcceptanceOrder := by
  constructor
  · intro s t q qs i hcfg hdecode hexec
    obtain ⟨-, hlater⟩ := exec_samePins i _ t hexec
    rw [← withRequests_cons_cmd s q qs] at hdecode
    rw [step_withRequests_cons s q qs hcfg, acceptRequest_of_ok _ i hdecode, hexec, onNext_next,
      advance_eq_withRequests t qs hlater]
  · intro s q qs e hcfg hdecode
    rw [← withRequests_cons_cmd s q qs] at hdecode
    rw [step_withRequests_cons s q qs hcfg, acceptRequest_of_error _ e hdecode, onNext_next,
      advance_eq_withRequests _ qs rfl]
    rfl

/-- Settles O28: a read ends in no new value, and the rule of every request repeats on the value it leaves. -/
theorem repeatingRequestIsIdempotent : Obligations.RepeatingRequestIsIdempotent := by
  constructor
  · intro i s t hread h
    cases (exec_eq_execute_ruleOf i s).symm.trans h
    exact execute_nothingWritten s i.reg _ fun e x y => ruleOf_ne_update i s.wdata e x y hread
  · intro i s t u h hcfg hx hwdata
    obtain ⟨hkept, -⟩ := exec_sameShape i s t h
    obtain ⟨hport, -⟩ := exec_samePins i s t h
    have hw : u.wdata = s.wdata := by rw [State.wdata, State.wdata, hwdata, hport]
    cases (exec_eq_execute_ruleOf i s).symm.trans h
    obtain ⟨hx', hanswer⟩ := execute_again s u i.reg _ (ruleOf_repeats i s.wdata) (hcfg.trans hkept) hx
    refine ⟨_, exec_eq_execute_ruleOf i u, ?_⟩
    obtain ⟨hshape, -⟩ := execute_sameShape u i.reg (ruleOf i u.wdata)
    rw [hw] at hshape ⊢
    exact ⟨hx', hshape.trans hcfg, hanswer⟩

/-- Settles O43, turn by turn: by induction on the order the arbiter chooses. -/
theorem arbiterKeepsEachOrder : Obligations.ArbiterKeepsEachOrder := servedOf_arbitrate_prefix

end Sys2Proof.Proofs

/-! The statements about 30_encoding.md: the command word and its one encoding of each request (R62 to R69), and the
assembler's lines and names (R71, R72). -/

namespace Sys2Proof

/-! Decoding what is encoded, and encoding what is decoded (R62, R66, R68). -/

theorem regOk_iff (r : Nat) : regOk r = true ↔ r ≤ 255 := decide_eq_true_iff

theorem fieldOk_iff (k : Nat) : fieldOk k = true ↔ k ≤ 255 := decide_eq_true_iff

theorem regOk_toNat (f : Byte) : regOk f.toNat = true := (regOk_iff _).mpr (by omega)

theorem fieldOk_toNat (f : Byte) : fieldOk f.toNat = true := (fieldOk_iff _).mpr (by omega)

/-- The decoder takes each operand back out of the field the encoder put it in, and no other line of R68 has the
request's `OP` and `D`. -/
theorem decode_encode (i : Instr) (h : i.wellFormed = true) : decode (encode i) = .ok i := by
  rw [decode_ok_iff]
  cases i with
  | width r | read r =>
    have hr := toNat_indexField r ((regOk_iff r).mp h)
    simp [encode, hr]
  | rdbit r a | wrbit r a | rdrest r a =>
    obtain ⟨hr, ha⟩ := Bool.and_eq_true_iff.mp h
    have hr := toNat_indexField r ((regOk_iff r).mp hr)
    simp [encode, hr, sext8_signedField a ha]
  | rdrange r a b | wrrange r a b =>
    obtain ⟨hra, hb⟩ := Bool.and_eq_true_iff.mp h
    obtain ⟨hr, ha⟩ := Bool.and_eq_true_iff.mp hra
    have hr := toNat_indexField r ((regOk_iff r).mp hr)
    simp [encode, hr, sext8_signedField a ha, sext8_signedField b hb]
  | fget r k | fset r k =>
    obtain ⟨hr, hk⟩ := Bool.and_eq_true_iff.mp h
    have hr := toNat_indexField r ((regOk_iff r).mp hr)
    have hk := toNat_indexField k ((fieldOk_iff k).mp hk)
    simp [encode, hr, hk]

/-- Whatever the decoder answers has operands that fit their fields: they come out of those fields. -/
theorem wellFormed_of_decode (w : Cmd) (i : Instr) (h : decode w = .ok i) : i.wellFormed = true := by
  obtain ⟨-, hline⟩ := (decode_ok_iff w i).mp h
  rcases hline with ⟨-, -, -, rfl⟩ | ⟨-, -, -, rfl⟩ | ⟨-, -, -, rfl⟩ | ⟨-, -, -, rfl⟩ | ⟨-, -, rfl⟩ | ⟨-, -, -, rfl⟩ |
    ⟨-, -, rfl⟩ | ⟨-, -, -, rfl⟩ | ⟨-, -, -, rfl⟩ <;>
  simp [Instr.wellFormed, regOk_toNat, fieldOk_toNat, signedOk_sext8]

/-- The word a request came from is its encoding: the line of R68 fixes every field the request does not name. -/
theorem encode_of_decode (w : Cmd) (i : Instr) (h : decode w = .ok i) : encode i = w := by
  obtain ⟨hz, hline⟩ := (decode_ok_iff w i).mp h
  refine Eq.trans ?_ (pack_fields w hz)
  rcases hline with ⟨hop, hd, ⟨ha, hb⟩, rfl⟩ | ⟨hop, hd, ⟨ha, hb⟩, rfl⟩ | ⟨hop, hd, hb, rfl⟩ | ⟨hop, hd, hb, rfl⟩ |
    ⟨hop, hd, rfl⟩ | ⟨hop, hd, hb, rfl⟩ | ⟨hop, hd, rfl⟩ | ⟨hop, hd, hb, rfl⟩ | ⟨hop, hd, hb, rfl⟩ <;>
  simp [encode, signedField_sext8, *]

/-! The legal words, by their fields (R66 to R69). -/

/-- The nine lines of R68 from the side of the word: some request with the property is decoded when the word has the
fields of a line and that line's request has the property. -/
theorem exists_decode_iff (w : Cmd) (p : Instr → Prop) : (∃ i, decode w = .ok i ∧ p i) ↔ fieldZ w = 0 ∧
    ((fieldOP w = 1 ∧ fieldD w = 0 ∧ (fieldA w = 0 ∧ fieldB w = 0) ∧ p (.width (fieldR w).toNat)) ∨
     (fieldOP w = 2 ∧ fieldD w = 0 ∧ (fieldA w = 0 ∧ fieldB w = 0) ∧ p (.read (fieldR w).toNat)) ∨
     (fieldOP w = 3 ∧ fieldD w = 0 ∧ fieldB w = 0 ∧ p (.rdbit (fieldR w).toNat (sext8 (fieldA w)))) ∨
     (fieldOP w = 4 ∧ fieldD w = 0 ∧ fieldB w = 0 ∧ p (.wrbit (fieldR w).toNat (sext8 (fieldA w)))) ∨
     (fieldOP w = 5 ∧ fieldD w = 0 ∧ p (.rdrange (fieldR w).toNat (sext8 (fieldA w)) (sext8 (fieldB w)))) ∨
     (fieldOP w = 5 ∧ fieldD w = 1 ∧ fieldB w = 0 ∧ p (.rdrest (fieldR w).toNat (sext8 (fieldA w)))) ∨
     (fieldOP w = 6 ∧ fieldD w = 0 ∧ p (.wrrange (fieldR w).toNat (sext8 (fieldA w)) (sext8 (fieldB w)))) ∨
     (fieldOP w = 7 ∧ fieldD w = 0 ∧ fieldB w = 0 ∧ p (.fget (fieldR w).toNat (fieldA w).toNat)) ∨
     (fieldOP w = 8 ∧ fieldD w = 0 ∧ fieldB w = 0 ∧ p (.fset (fieldR w).toNat (fieldA w).toNat))) := by
  simp only [decode_ok_iff, and_assoc, or_and_right, exists_and_left, exists_or, exists_eq_left']

theorem decode_error_iff (w : Cmd) : (∃ e, decode w = .error e) ↔ ¬ ∃ i, decode w = .ok i := by
  cases decode w <;> simp

/-! The opcode map (R67). -/

/-- No row masks `R`, and every row masks the low byte whole, where `OP`, `D` and `Z` stand. -/
theorem rowMask_iff (w : Cmd) (mb ma low : Byte) :
    w &&& (0#8 ++ mb ++ ma ++ 255#8) = 0#8 ++ 0#8 ++ 0#8 ++ low ↔
      fieldZ w = low.extractLsb' 5 3 ∧ fieldOP w = low.extractLsb' 0 4 ∧ fieldD w = low.extractLsb' 4 1 ∧
        fieldA w &&& ma = 0 ∧ fieldB w &&& mb = 0 := by
  have hlow : w.extractLsb' 0 8 &&& 255#8 = w.extractLsb' 0 8 := BitVec.and_allOnes
  rw [and_eq_four_bytes, hlow, lowByte_eq_iff, BitVec.and_zero]
  tauto

/-- The mask of the requests without an operand in `A` or `B`: WIDTH and READ. -/
theorem rowMask_noOperand_iff (w : Cmd) (low : Byte) :
    w &&& 0x00FFFFFF#32 = 0#8 ++ 0#8 ++ 0#8 ++ low ↔
      fieldZ w = low.extractLsb' 5 3 ∧ fieldOP w = low.extractLsb' 0 4 ∧ fieldD w = low.extractLsb' 4 1 ∧
        fieldA w = 0 ∧ fieldB w = 0 := by
  have h := rowMask_iff w 255#8 255#8 low
  rwa [show fieldA w &&& 255#8 = fieldA w from BitVec.and_allOnes,
    show fieldB w &&& 255#8 = fieldB w from BitVec.and_allOnes] at h

/-- The mask of the requests with an operand in `A` alone. -/
theorem rowMask_operandA_iff (w : Cmd) (low : Byte) :
    w &&& 0x00FF00FF#32 = 0#8 ++ 0#8 ++ 0#8 ++ low ↔
      fieldZ w = low.extractLsb' 5 3 ∧ fieldOP w = low.extractLsb' 0 4 ∧ fieldD w = low.extractLsb' 4 1 ∧
        fieldB w = 0 := by
  have h := rowMask_iff w 255#8 0#8 low
  rw [show fieldB w &&& 255#8 = fieldB w from BitVec.and_allOnes, BitVec.and_zero] at h
  simpa using h

/-- The mask of the requests with operands in both: RDRANGE and WRRANGE. -/
theorem rowMask_operandsAB_iff (w : Cmd) (low : Byte) :
    w &&& 0x000000FF#32 = 0#8 ++ 0#8 ++ 0#8 ++ low ↔
      fieldZ w = low.extractLsb' 5 3 ∧ fieldOP w = low.extractLsb' 0 4 ∧ fieldD w = low.extractLsb' 4 1 := by
  have h := rowMask_iff w 0#8 0#8 low
  rw [BitVec.and_zero, BitVec.and_zero] at h
  simpa using h

/-- R67, row by row: the mask says which of `A` and `B` must be zero, and the low byte gives `OP`, `D` and `Z`. -/
theorem row_match_iff_decode (w : Cmd) (row : OpRow) (hrow : row ∈ opTable) :
    w &&& row.mask = row.value ↔ ∃ i, decode w = .ok i ∧ i.mnemonic = row.mnemonic := by
  rw [exists_decode_iff]
  simp only [opTable, List.mem_cons, List.not_mem_nil, or_false] at hrow
  rcases hrow with rfl | rfl | rfl | rfl | rfl | rfl | rfl | rfl | rfl
  · simpa [Instr.mnemonic] using rowMask_noOperand_iff w 0x01
  · simpa [Instr.mnemonic] using rowMask_noOperand_iff w 0x02
  · simpa [Instr.mnemonic] using rowMask_operandA_iff w 0x03
  · simpa [Instr.mnemonic] using rowMask_operandA_iff w 0x04
  · simpa [Instr.mnemonic] using rowMask_operandsAB_iff w 0x05
  · simpa [Instr.mnemonic] using rowMask_operandA_iff w 0x15
  · simpa [Instr.mnemonic] using rowMask_operandsAB_iff w 0x06
  · simpa [Instr.mnemonic] using rowMask_operandA_iff w 0x07
  · simpa [Instr.mnemonic] using rowMask_operandA_iff w 0x08

/-- No two rows of the opcode map have one mnemonic. -/
theorem row_eq_of_mnemonic : ∀ row ∈ opTable, ∀ row' ∈ opTable, row.mnemonic = row'.mnemonic → row = row' := by
  decide

/-- Two rows that match one word are both the row of what it decodes to. -/
theorem row_unique (w : Cmd) (row row' : OpRow) (hrow : row ∈ opTable) (hrow' : row' ∈ opTable)
    (h : w &&& row.mask = row.value) (h' : w &&& row'.mask = row'.value) : row = row' := by
  obtain ⟨i, hi, hm⟩ := (row_match_iff_decode w row hrow).mp h
  obtain ⟨i', hi', hm'⟩ := (row_match_iff_decode w row' hrow').mp h'
  cases hi.symm.trans hi'
  exact row_eq_of_mnemonic row hrow row' hrow' (hm.symm.trans hm')

/-! The illegal words (R69). -/

theorem decode_error_iff_fields (w : Cmd) : (∃ e, decode w = .error e) ↔
    (fieldOP w = 0 ∨ 9 ≤ (fieldOP w).toNat) ∨ fieldZ w ≠ 0 ∨ (fieldD w = 1 ∧ fieldOP w ≠ 5) ∨
    ((fieldOP w = 1 ∨ fieldOP w = 2) ∧ (fieldA w ≠ 0 ∨ fieldB w ≠ 0)) ∨
    ((fieldOP w = 3 ∨ fieldOP w = 4 ∨ fieldOP w = 7 ∨ fieldOP w = 8) ∧ fieldB w ≠ 0) ∨
    (fieldOP w = 5 ∧ fieldD w = 1 ∧ fieldB w ≠ 0) := by
  have hlegal := exists_decode_iff w fun _ => True
  simp only [and_true] at hlegal
  rw [decode_error_iff, hlegal]
  generalize fieldOP w = op, fieldD w = d
  rcases op_values op with rfl | rfl | rfl | rfl | rfl | rfl | rfl | rfl | rfl | rfl | rfl | rfl | rfl | rfl | rfl | rfl <;>
    rcases d_values d with rfl | rfl <;> simp [imp_iff_not_or]

end Sys2Proof

namespace Sys2Proof.Machine

/-! Names (R72, R155). -/

/-- A search by name finds the first entry that carries it, whatever the entries are. -/
theorem findIdx?_name_eq_some_iff {α : Type} (nameOf : α → String) (entries : List α) (name : String) (k : Nat) :
    entries.findIdx? (fun e => nameOf e == name) = some k ↔ (∃ e, entries[k]? = some e ∧ nameOf e = name) ∧
      ∀ q e, q < k → entries[q]? = some e → nameOf e ≠ name := by
  simp only [List.findIdx?_eq_some_iff_getElem, List.getElem?_eq_some_iff, beq_iff_eq]
  constructor
  · rintro ⟨hk, hname, hfirst⟩
    exact ⟨⟨_, ⟨hk, rfl⟩, hname⟩, by rintro q e hq ⟨-, rfl⟩; exact hfirst q hq⟩
  · rintro ⟨⟨e, ⟨hk, rfl⟩, hname⟩, hfirst⟩
    exact ⟨hk, hname, fun q hq => hfirst q _ hq ⟨hq.trans hk, rfl⟩⟩

theorem findIdx?_name_eq_none_iff {α : Type} (nameOf : α → String) (entries : List α) (name : String) :
    entries.findIdx? (fun e => nameOf e == name) = none ↔ ∀ e ∈ entries, nameOf e ≠ name := by
  simp [List.findIdx?_eq_none_iff]

/-- Within a register of the catalog a field name is searched in that register's fields. -/
theorem resolveField_named (cfg : Config) (r : Nat) (e : RegEntry) (name : String) (he : cfg.catalog[r]? = some e) :
    resolveField cfg r (.named name) = e.fields.findIdx? (fun f => f.name == name) := by
  rw [resolveField, he, Option.bind_some]

/-! The lines (R71, R72). -/

/-- FGET and FSET stand for the field index their operand resolves to, and for nothing where it resolves to none. -/
theorem expandLine_field (cfg : Config) (r : RegOperand) (f : FieldOperand) (n v : Nat)
    (hr : resolveReg cfg r = some n) :
    expandLine cfg (.fget r f) = (resolveField cfg n f).map (fun k => (.fget n k, 0)) ∧
      expandLine cfg (.fset r f v) = (resolveField cfg n f).map (fun k => (.fset n k, v)) := by
  simp only [expandLine, hr, Option.bind_some, and_self]

/-- WRALL stands for WRRANGE over the width the catalog gives. -/
theorem expandLine_wrall (cfg : Config) (r : RegOperand) (n v : Nat) (e : RegEntry) (hr : resolveReg cfg r = some n)
    (he : cfg.catalog[n]? = some e) : expandLine cfg (.wrall r v) = some (.wrrange n 0 e.width, v) := by
  rw [expandLine, hr, Option.bind_some, he, Option.map_some]

/-- When a line assembles, and to what: its request and value fit the command word and `WDATA`. -/
theorem assemble_eq_some_iff (cfg : Config) (line : AsmLine) (q : Request) : assemble cfg line = some q ↔
    ∃ i v, expandLine cfg line = some (i, v) ∧ i.wellFormed = true ∧ v < 2 ^ 64 ∧
      q = { cmd := encode i, wdata := BitVec.ofNat 64 v } := by
  unfold assemble
  rw [Option.bind_eq_some_iff]
  constructor
  · rintro ⟨⟨i, v⟩, hexpand, hq⟩
    obtain ⟨hfits, hq⟩ := Option.ite_none_right_eq_some.mp hq
    obtain ⟨hwf, hv⟩ := Bool.and_eq_true_iff.mp hfits
    exact ⟨i, v, hexpand, hwf, of_decide_eq_true hv, (Option.some.inj hq).symm⟩
  · rintro ⟨i, v, hexpand, hwf, hv, rfl⟩
    exact ⟨(i, v), hexpand, if_pos (Bool.and_eq_true_iff.mpr ⟨hwf, decide_eq_true hv⟩)⟩

/-! WRALL, run (R72, R108). -/

/-- A valid configuration has at most 256 registers, so every register index fits `R` (R233, R65). -/
theorem index_le_of_valid (cfg : Config) (r : Nat) (e : RegEntry) (hv : configError cfg = none)
    (he : cfg.catalog[r]? = some e) : r ≤ 255 := by
  obtain ⟨hr, -⟩ := List.getElem?_eq_some_iff.mp he
  unfold configError at hv
  split at hv
  · cases hv
  · omega

/-- A width of at most 64 is a signed operand, so writing a whole register is a well-formed request. -/
theorem wellFormed_wrrange_width (r w : Nat) (hr : r ≤ 255) (hw : w ≤ 64) :
    (Instr.wrrange r 0 w).wellFormed = true := by
  have hsigned : signedOk w = true :=
    Bool.and_eq_true_iff.mpr ⟨decide_eq_true (by omega), decide_eq_true (by omega)⟩
  have hzero : signedOk 0 = true := rfl
  simp only [Instr.wellFormed, (regOk_iff r).mpr hr, hzero, hsigned, Bool.and_self]

/-- Replacing every bit of a register leaves the new value alone. -/
theorem replaceBits_whole (x w v : Nat) (hx : x < 2 ^ w) (hv : v < 2 ^ w) : replaceBits x 0 w v = v := by
  refine Nat.eq_of_testBit_eq fun j => ?_
  rw [testBit_replaceBits]
  split
  · rfl
  · next hj =>
    have hj : w ≤ j := by simpa using hj
    rw [testBit_of_lt x w j hx hj, testBit_of_lt v w j hv hj]

/-- The whole register is inside its bounds, and a value that fits it is not too large. -/
theorem ruleWrrange_whole (e : RegEntry) (x v : Nat) (hw : 1 ≤ e.width) (hx : x < 2 ^ e.width)
    (hv : v < 2 ^ e.width) : ruleWrrange 0 e.width v e x = .update v := by
  have hin : spanOutside e.width 0 e.width = false := (spanOutside_eq_false _ _ _).mpr ⟨le_rfl, by omega, by omega⟩
  have hfits : ¬ ones (e.width : Int).toNat < v := by rw [ones_eq, Int.toNat_natCast]; omega
  rw [ruleWrrange, hin, if_neg Bool.false_ne_true, if_neg hfits, replaceBits_whole x e.width v hx hv]

/-- A presented request whose rule ends in a new value answers OK, and the register it names holds the value. -/
theorem step_of_update (s : State) (q : Request) (i : Instr) (e : RegEntry) (v : Nat) (h : s.Inv)
    (he : s.entryAt i.reg = some e) (hdecode : decode q.cmd = .ok i)
    (hrule : ruleOf i q.wdata.toNat e (s.reg i.reg) = .update v) :
    ∃ t, step (s.withRequests [q]) = .next t ∧ Responds t .ok 0 ∧ t.reg i.reg = v := by
  have hlt : i.reg < s.x.length := by
    obtain ⟨hr, -⟩ := List.getElem?_eq_some_iff.mp he
    rwa [h.length]
  have hrun : (s.withRequests [q]).execute i.reg (ruleOf i q.wdata.toNat) =
      (s.withRequests [q]).complete i.reg (.update v) := by
    rw [← hrule]
    exact (s.withRequests [q]).execute_of_entry i.reg (ruleOf i q.wdata.toNat) e he
  refine ⟨((s.withRequests [q]).complete i.reg (.update v)).advance, ?_, ?_, ?_⟩
  · rw [step_withRequests_cons s q [] h.config, acceptRequest_of_ok (s.withRequests [q]) i hdecode,
      exec_eq_execute_ruleOf]
    exact congrArg (fun t => onNext State.advance (.next t)) hrun
  · exact ⟨rfl, rfl, rfl⟩
  · rw [State.complete_update, State.advance_reg, State.respond_reg, State.setReg_reg]
    exact if_pos ⟨rfl, hlt⟩

end Sys2Proof.Machine

namespace Sys2Proof.Proofs

open Sys2Proof.Machine

/-- Settles O2: every field of the packed word is the operand's, and the operand's value is read back from it. -/
theorem decodeOfEncode : Obligations.DecodeOfEncode := decode_encode

/-- Settles O3: the operands come out of the word's fields, and every other field is fixed by the line of R68. -/
theorem encodeOfDecode : Obligations.EncodeOfDecode :=
  fun w i h => ⟨wellFormed_of_decode w i h, encode_of_decode w i h⟩

/-- Settles O4: the match and mask of a row are the decoder's conditions on the fields, and the mnemonic tells the rows
apart. -/
theorem decodeAgreesWithMatchAndMask : Obligations.DecodeAgreesWithMatchAndMask :=
  ⟨rfl, row_match_iff_decode, row_unique, by decide⟩

/-- Settles O5: a word is illegal when it is on none of the nine lines of R68, and the edge that accepts it only
raises. -/
theorem illegalWordsExactly : Obligations.IllegalWordsExactly := by
  refine ⟨decode_error_iff_fields, fun s e hcfg hrst hvalid hdecode => ?_⟩
  refine ⟨(s.raise .illegalCommand).advance, ?_, ⟨rfl, rfl, rfl⟩, rfl, rfl, rfl⟩
  rw [step_of_request s hcfg hrst hvalid, acceptRequest_of_error s e hdecode, onNext_next]

/-- Settles O45: the forms without a name by the equations of `expandLine`, the others by the first index that carries
the name. -/
theorem pseudoInstructionsExpand : Obligations.PseudoInstructionsExpand := by
  refine ⟨fun _ _ => rfl, fun cfg r n hr => ?_, fun cfg r n e hr he v => ⟨?_, ?_, ?_⟩, fun cfg name h => ?_⟩
  · simp [expandLine, resolveField, hr]
  · exact expandLine_wrall cfg r n v e hr he
  · intro name k hk hfirst
    have hfield : resolveField cfg n (.named name) = some k :=
      (resolveField_named cfg n e name he).trans ((findIdx?_name_eq_some_iff _ _ _ _).mpr ⟨hk, hfirst⟩)
    simpa [hfield] using expandLine_field cfg r (.named name) n v hr
  · intro name h
    have hfield : resolveField cfg n (.named name) = none :=
      (resolveField_named cfg n e name he).trans ((findIdx?_name_eq_none_iff _ _ _).mpr h)
    simpa [hfield] using expandLine_field cfg r (.named name) n v hr
  · exact (findIdx?_name_eq_none_iff _ _ _).mpr h

/-- Settles O46: both searches are by name from the front. -/
theorem namesResolveToFirstIndex : Obligations.NamesResolveToFirstIndex := by
  refine ⟨fun cfg name n => findIdx?_name_eq_some_iff RegEntry.name cfg.catalog name n, fun cfg r k e name he => ?_⟩
  rw [resolveField_named cfg r e name he]
  exact findIdx?_name_eq_some_iff FieldEntry.name e.fields name k

/-- Settles O47: the assembler encodes only well-formed requests, so the decoder gives them back. -/
theorem assembledLineDecodes : Obligations.AssembledLineDecodes := by
  intro cfg line q h
  obtain ⟨i, v, hexpand, hwf, hv, rfl⟩ := (assemble_eq_some_iff cfg line q).mp h
  exact ⟨i, v, hexpand, hwf, decode_encode i hwf, Nat.mod_eq_of_lt hv⟩

/-- Settles O48: WRALL is WRRANGE over the whole width, which the bounds admit and which replaces every bit. -/
theorem wrallSetsWholeRegister : Obligations.WrallSetsWholeRegister := by
  intro s r v e hinv he hv
  obtain ⟨-, ⟨hw1, hw64⟩, -⟩ := entry_of_valid s.cfg r e hinv.config he
  have hwf := wellFormed_wrrange_width r e.width (index_le_of_valid s.cfg r e hinv.config he) hw64
  have hv64 : v < 2 ^ 64 := hv.trans_le (Nat.pow_le_pow_right (by decide) hw64)
  have hexpand : expandLine s.cfg (.wrall (.index r) v) = some (.wrrange r 0 e.width, v) :=
    expandLine_wrall s.cfg (.index r) r v e rfl he
  obtain ⟨q, hassemble⟩ : ∃ q, assemble s.cfg (.wrall (.index r) v) = some q :=
    ⟨_, (assemble_eq_some_iff s.cfg _ _).mpr ⟨_, v, hexpand, hwf, hv64, rfl⟩⟩
  obtain ⟨i, v', hexpand', -, hdecode, hwdata⟩ := assembledLineDecodes s.cfg _ q hassemble
  cases hexpand.symm.trans hexpand'
  have hrule : ruleOf (.wrrange r 0 e.width) q.wdata.toNat e (s.reg r) = .update v := by
    rw [hwdata]
    exact ruleWrrange_whole e (s.reg r) v hw1 (hinv.bounded r e he) hv
  obtain ⟨t, hnext⟩ := step_of_update s q (.wrrange r 0 e.width) e v hinv he hdecode hrule
  exact ⟨q, t, hassemble, hnext⟩

/-- Settles O1: each word decoded by evaluation. -/
theorem decodesListedWords : Obligations.DecodesListedWords :=
  ⟨rfl, rfl, rfl, rfl, rfl, rfl, rfl, rfl, rfl, rfl, rfl, ⟨_, rfl⟩, ⟨_, rfl⟩⟩

/-- Settles O49: each line parsed and assembled by evaluation. -/
theorem listedLinesAssemble : Obligations.ListedLinesAssemble := by
  refine ⟨?_, ?_, ?_, ?_, ?_, ?_, ?_, ?_, ?_, ?_, ?_, ?_, ?_, ?_, ?_, ?_⟩ <;> decide

end Sys2Proof.Proofs

/-! The statements about 40_register_port.md: what each request of the register port answers and writes, and the errors
it is refused with (R100 to R109). -/

namespace Sys2Proof.Machine

/-! The bounds checks where they refuse; where they pass is in Laws/Bits. -/

theorem bitOutside_eq_true (w : Nat) (bit : Int) : bitOutside w bit = true ↔ bit < 0 ∨ bit ≥ w := by
  simp [bitOutside]

theorem rangeOutside_eq_true (w : Nat) (start stop : Int) :
    rangeOutside w start stop = true ↔ start < 0 ∨ stop > w ∨ stop ≤ start := by
  simp [rangeOutside, or_assoc]

theorem spanOutside_eq_true (w : Nat) (start size : Int) :
    spanOutside w start size = true ↔ start < 0 ∨ size ≤ 0 ∨ start + size > w := by
  simp [spanOutside, or_assoc]

theorem ones_lt_iff (n v : Nat) : ones n < v ↔ 2 ^ n ≤ v := by
  have hpos := Nat.two_pow_pos n
  rw [ones_eq]
  omega

/-! Each rule on each side of its checks. -/

theorem ruleRdbit_inside (bit : Int) (e : RegEntry) (x : Nat) (h : 0 ≤ bit ∧ bit < e.width) :
    ruleRdbit bit e x = .answer (readBit x bit) := by
  rw [ruleRdbit, (bitOutside_eq_false _ _).mpr h, if_neg Bool.false_ne_true]

theorem ruleRdbit_outside (bit : Int) (e : RegEntry) (x : Nat) (h : bit < 0 ∨ bit ≥ e.width) :
    ruleRdbit bit e x = .fail .outOfRange := by
  rw [ruleRdbit, if_pos ((bitOutside_eq_true _ _).mpr h)]

/-- The new value is `setBit` or `clearBit`; both give the bit the value written and leave every other bit (R103). -/
theorem ruleWrbit_inside (bit : Int) (v : Nat) (e : RegEntry) (x : Nat) (h : 0 ≤ bit ∧ bit < e.width)
    (hv : v = 0 ∨ v = 1) : ∃ y, ruleWrbit bit v e x = .update y ∧
      ∀ j, y.testBit j = if j = bit.toNat then decide (v = 1) else x.testBit j := by
  have hin := (bitOutside_eq_false _ _).mpr h
  rcases hv with rfl | rfl
  · refine ⟨clearBit x bit, by simp [ruleWrbit, hin], fun j => ?_⟩
    rw [testBit_clearBit]
    by_cases hj : j = bit.toNat <;> simp [hj]
  · refine ⟨setBit x bit, by simp [ruleWrbit, hin], fun j => ?_⟩
    rw [testBit_setBit]
    by_cases hj : j = bit.toNat <;> simp [hj]

theorem ruleWrbit_outside (bit : Int) (v : Nat) (e : RegEntry) (x : Nat) (h : bit < 0 ∨ bit ≥ e.width) :
    ruleWrbit bit v e x = .fail .outOfRange := by
  rw [ruleWrbit, if_pos ((bitOutside_eq_true _ _).mpr h)]

theorem ruleWrbit_badValue (bit : Int) (v : Nat) (e : RegEntry) (x : Nat) (h : 0 ≤ bit ∧ bit < e.width)
    (hv : 2 ≤ v) : ruleWrbit bit v e x = .fail .invalidBitValue := by
  rw [ruleWrbit, (bitOutside_eq_false _ _).mpr h, if_neg Bool.false_ne_true, if_pos (by omega)]

theorem ruleRdrange_inside (start stop : Int) (e : RegEntry) (x : Nat)
    (h : 0 ≤ start ∧ stop ≤ e.width ∧ start < stop) :
    ruleRdrange start stop e x = .answer (readRange x start stop) := by
  rw [ruleRdrange, (rangeOutside_eq_false _ _ _).mpr h, if_neg Bool.false_ne_true]

theorem ruleRdrange_outside (start stop : Int) (e : RegEntry) (x : Nat)
    (h : start < 0 ∨ stop > e.width ∨ stop ≤ start) : ruleRdrange start stop e x = .fail .outOfRange := by
  rw [ruleRdrange, if_pos ((rangeOutside_eq_true _ _ _).mpr h)]

theorem ruleWrrange_inside (start size : Int) (v : Nat) (e : RegEntry) (x : Nat)
    (h : 0 ≤ start ∧ 0 < size ∧ start + size ≤ e.width) (hv : v < 2 ^ size.toNat) :
    ruleWrrange start size v e x = .update (replaceBits x start size v) := by
  rw [ruleWrrange, (spanOutside_eq_false _ _ _).mpr h, if_neg Bool.false_ne_true,
    if_neg (by rwa [ones_lt_iff, not_le])]

theorem ruleWrrange_outside (start size : Int) (v : Nat) (e : RegEntry) (x : Nat)
    (h : start < 0 ∨ size ≤ 0 ∨ start + size > e.width) : ruleWrrange start size v e x = .fail .outOfRange := by
  rw [ruleWrrange, if_pos ((spanOutside_eq_true _ _ _).mpr h)]

theorem ruleWrrange_tooLarge (start size : Int) (v : Nat) (e : RegEntry) (x : Nat)
    (h : 0 ≤ start ∧ 0 < size ∧ start + size ≤ e.width) (hv : 2 ^ size.toNat ≤ v) :
    ruleWrrange start size v e x = .fail .valueTooLarge := by
  rw [ruleWrrange, (spanOutside_eq_false _ _ _).mpr h, if_neg Bool.false_ne_true, if_pos ((ones_lt_iff _ _).mpr hv)]

/-- A one-bit range is the bit (R105). -/
theorem readRange_one (x : Nat) (bit : Int) : readRange x bit (bit + 1) = readBit x bit := by
  have hlen : (bit + 1 - bit).toNat = 1 := by omega
  rw [readRange, readBit, hlen]
  rfl

theorem ruleRdbit_eq_ruleRdrange (bit : Int) (e : RegEntry) (x : Nat) (h : 0 ≤ bit ∧ bit < e.width) :
    ruleRdbit bit e x = ruleRdrange bit (bit + 1) e x := by
  rw [ruleRdbit_inside bit e x h, ruleRdrange_inside bit (bit + 1) e x (by omega), readRange_one]

/-- The errors a rule can end in. Elaboration and the register check have their own (R100, R201). -/
theorem ruleOf_fail (i : Instr) (v : Nat) (e : RegEntry) (x : Nat) (st : Status) (h : ruleOf i v e x = .fail st) :
    st ∈ [Status.outOfRange, .invalidBitValue, .valueTooLarge, .unknownFieldName] := by
  cases i with
  | width r | read r => cases h
  | rdbit r bit | rdrange r start stop | rdrest r start =>
    simp only [ruleOf, ruleRdbit, ruleRdrange, ruleRdrest] at h
    split at h <;> cases h
    decide
  | wrbit r bit =>
    simp only [ruleOf, ruleWrbit] at h
    split at h
    · cases h; decide
    · split at h
      · cases h; decide
      · split at h <;> cases h
  | wrrange r start size | fget r k =>
    simp only [ruleOf, ruleWrrange, ruleFget] at h
    split at h
    · cases h; decide
    · split at h <;> cases h
      decide
  | fset r k =>
    simp only [ruleOf, ruleFset] at h
    split at h
    · cases h; decide
    · split at h
      · cases h; decide
      · split at h <;> cases h
        decide

/-! exec on a register that exists, by what the request's rule ends in. -/

theorem exec_of_entry (i : Instr) (s : State) (e : RegEntry) (he : s.entryAt i.reg = some e) :
    exec i s = .next (s.complete i.reg (ruleOf i s.wdata e (s.reg i.reg))) := by
  rw [exec_eq_execute_ruleOf, s.execute_of_entry i.reg _ e he]

theorem exec_of_rule (i : Instr) (s : State) (e : RegEntry) (f : Effect) (he : s.entryAt i.reg = some e)
    (hrule : ruleOf i s.wdata e (s.reg i.reg) = f) : exec i s = .next (s.complete i.reg f) := by
  rw [exec_of_entry i s e he, hrule]

/-- A rule that answers what the read-data path can carry: the answer stands on the pins, and nothing is written. -/
theorem exec_answers (i : Instr) (s : State) (e : RegEntry) (v : Nat) (he : s.entryAt i.reg = some e)
    (hrule : ruleOf i s.wdata e (s.reg i.reg) = .answer v) (hv : v < 2 ^ 64) :
    ∃ t, exec i s = .next t ∧ Responds t .ok v ∧ NothingWritten s t :=
  ⟨s.respond .ok v, exec_of_rule i s e _ he hrule, ⟨rfl, rfl, zext64_toNat v hv⟩, rfl, rfl, rfl, rfl⟩

/-- A rule that ends in a new value: the register holds it, and no other register, configuration or pin changes. -/
theorem exec_writes (i : Instr) (s : State) (e : RegEntry) (v : Nat) (hlen : s.x.length = s.cfg.catalog.length)
    (he : s.entryAt i.reg = some e) (hrule : ruleOf i s.wdata e (s.reg i.reg) = .update v) :
    ∃ t, exec i s = .next t ∧ Responds t .ok 0 ∧ SameElsewhere i.reg s t ∧ SamePins s t ∧ t.reg i.reg = v := by
  obtain ⟨hr, -⟩ := List.getElem?_eq_some_iff.mp he
  have hexec := exec_of_rule i s e _ he hrule
  obtain ⟨hcfg, hx⟩ := exec_sameShape i s _ hexec
  refine ⟨_, hexec, ⟨rfl, rfl, rfl⟩, ⟨hcfg, hx, fun q hq => s.complete_elsewhere i.reg q _ hq⟩,
    exec_samePins i s _ hexec, ?_⟩
  rw [State.complete_update, State.respond_reg, State.setReg_reg, hlen]
  exact if_pos ⟨rfl, hr⟩

/-- Two requests whose rules end alike on the entry of the one register they name do the same. -/
theorem exec_congr (i i' : Instr) (s : State) (e : RegEntry) (he : s.entryAt i.reg = some e) (hreg : i'.reg = i.reg)
    (hrule : ruleOf i s.wdata e (s.reg i.reg) = ruleOf i' s.wdata e (s.reg i.reg)) : exec i s = exec i' s := by
  rw [exec_of_entry i s e he, exec_of_entry i' s e (hreg ▸ he), hreg, hrule]

/-- RDREST is RDRANGE up to the width (R107). -/
theorem exec_rdrest_eq_rdrange (r : Nat) (start : Int) (s : State) (e : RegEntry) (he : s.entryAt r = some e) :
    exec (.rdrest r start) s = exec (.rdrange r start e.width) s :=
  exec_congr (.rdrest r start) (.rdrange r start e.width) s e he rfl rfl

/-- The bits of the read data are those of the answer. -/
theorem Responds.getLsbD {t : State} {st : Status} {v : Nat} (h : Responds t st v) (j : Nat) :
    t.rspRdata.getLsbD j = v.testBit j := by
  obtain ⟨-, -, hdata⟩ := h
  rw [← hdata, BitVec.testBit_toNat]

/-- READ under the invariant: a value that fits its width fits the read-data path (R102). -/
theorem read_answers (s : State) (r : Nat) (e : RegEntry) (hinv : s.Inv) (he : s.entryAt r = some e) :
    ∃ t, exec (.read r) s = .next t ∧ Responds t .ok (s.reg r) ∧ s.reg r < 2 ^ e.width ∧ NothingWritten s t := by
  obtain ⟨-, ⟨-, hw⟩, -⟩ := entry_of_valid s.cfg r e hinv.config he
  have hx := hinv.bounded r e he
  obtain ⟨t, hexec, hresp, hkept⟩ :=
    exec_answers (.read r) s e (s.reg r) he rfl (hx.trans_le (Nat.pow_le_pow_right (by decide) hw))
  exact ⟨t, hexec, hresp, hx, hkept⟩

/-! The index check (R100, R40). -/

theorem entryAt_eq_none_iff (s : State) (r : Nat) : s.entryAt r = none ↔ s.cfg.catalog.length ≤ r :=
  List.getElem?_eq_none_iff

/-- Past the register check no request answers UnknownRegisterName: no rule fails with it, and its code is its own. -/
theorem complete_ruleOf_status (i : Instr) (v : Nat) (e : RegEntry) (x : Nat) (s : State) (r : Nat) :
    (s.complete r (ruleOf i v e x)).rspStatus ≠ Status.code .unknownRegisterName := by
  have hcodes : ∀ st ∈ [Status.outOfRange, .invalidBitValue, .valueTooLarge, .unknownFieldName],
      st.code ≠ Status.code .unknownRegisterName := by decide
  cases h : ruleOf i v e x with
  | fail st => exact hcodes st (ruleOf_fail i v e x st h)
  | answer y | update y => exact show (0 : BitVec 3) ≠ 5 by decide

/-! A write and a read back, as two requests presented back to back (R104, R109). -/

/-- Values that agree outside a mask are the same with the mask cleared. -/
theorem clearMask_congr (x y m : Nat) (h : ∀ j, m.testBit j = false → x.testBit j = y.testBit j) :
    clearMask x m = clearMask y m := by
  refine Nat.eq_of_testBit_eq fun j => ?_
  rw [testBit_clearMask, testBit_clearMask]
  cases hm : m.testBit j with
  | true => simp
  | false => rw [h j hm]

/-- A value whose bits in a range are those of `v` has `v` in that range. -/
theorem testBit_range_of_replaced (x y v start size : Nat) (hv : v < 2 ^ size)
    (h : ∀ j, y.testBit j = if start ≤ j ∧ j < start + size then v.testBit (j - start) else x.testBit j) (j : Nat) :
    (decide (j < size) && y.testBit (start + j)) = v.testBit j := by
  by_cases hj : j < size
  · have hin : start ≤ start + j ∧ start + j < start + size := by omega
    rw [h, if_pos hin, Nat.add_sub_cancel_left, decide_eq_true hj, Bool.true_and]
  · rw [testBit_of_lt v size j hv (by omega), decide_eq_false hj, Bool.false_and]

/-- The entry of a register is the configuration's (R41). -/
theorem entryAt_congr (s t : State) (r : Nat) (h : t.cfg = s.cfg) : t.entryAt r = s.entryAt r := by
  rw [State.entryAt, State.entryAt, h]

/-- A register index and the bounds of a register, `0` to its width, fit the fields of the command word (R65). -/
theorem operands_fit (s : State) (r : Nat) (e : RegEntry) (hv : configError s.cfg = none)
    (he : s.entryAt r = some e) : regOk r = true ∧ ∀ a : Int, 0 ≤ a → a ≤ e.width → signedOk a = true := by
  obtain ⟨-, ⟨-, hw⟩, -⟩ := entry_of_valid s.cfg r e hv he
  refine ⟨(regOk_iff r).mpr (index_le_of_valid s.cfg r e hv he), fun a h0 ha => ?_⟩
  exact Bool.and_eq_true_iff.mpr ⟨decide_eq_true (by omega), decide_eq_true (by omega)⟩

end Sys2Proof.Machine

namespace Sys2Proof.Proofs

open Sys2Proof.Machine

/-- Settles O15: inside the register the rule answers the bit, as a range of one bit does. -/
theorem rdbitAnswersBit : Obligations.RdbitAnswersBit := by
  intro s r bit e _ he
  refine ⟨fun hin => ⟨?_, ?_⟩, fun hout => ?_⟩
  · have hrule := ruleRdbit_inside bit e (s.reg r) hin
    have hbit : readBit (s.reg r) bit = if (s.reg r).testBit bit.toNat then 1 else 0 := by
      rw [readBit_eq]
      cases (s.reg r).testBit bit.toNat <;> rfl
    rw [hbit] at hrule
    exact exec_answers (.rdbit r bit) s e _ he hrule (by split <;> decide)
  · exact exec_congr (.rdbit r bit) (.rdrange r bit (bit + 1)) s e he rfl
      (ruleRdbit_eq_ruleRdrange bit e (s.reg r) hin)
  · exact exec_of_rule (.rdbit r bit) s e _ he (ruleRdbit_outside bit e (s.reg r) hout)

/-- Settles O16: the three sides of WRBIT's checks. -/
theorem wrbitWritesOneBit : Obligations.WrbitWritesOneBit := by
  intro s r bit e hlen he
  refine ⟨fun ⟨h0, hw, hv⟩ => ?_, fun hout => ?_, fun ⟨h0, hw, hv⟩ => ?_⟩
  · obtain ⟨y, hrule, hbits⟩ := ruleWrbit_inside bit s.wdata e (s.reg r) ⟨h0, hw⟩ hv
    obtain ⟨t, hexec, hresp, helse, hpins, hreg⟩ := exec_writes (.wrbit r bit) s e y hlen he hrule
    exact ⟨t, hexec, hresp, helse, hpins, fun j => hreg ▸ hbits j⟩
  · exact exec_of_rule (.wrbit r bit) s e _ he (ruleWrbit_outside bit s.wdata e (s.reg r) hout)
  · exact exec_of_rule (.wrbit r bit) s e _ he (ruleWrbit_badValue bit s.wdata e (s.reg r) ⟨h0, hw⟩ hv)

/-- Settles O17: a range inside the register is at most 64 bits, so the read-data path carries all of it. -/
theorem rdrangeAnswersRange : Obligations.RdrangeAnswersRange := by
  intro s r start stop e hvalid he
  refine ⟨fun hin => ?_, fun hout => ?_⟩
  · obtain ⟨-, ⟨-, hw⟩, -⟩ := entry_of_valid s.cfg r e hvalid he
    have hfits : readRange (s.reg r) start stop < 2 ^ 64 :=
      (readRange_lt _ start stop).trans_le (Nat.pow_le_pow_right (by decide) (by omega))
    obtain ⟨t, hexec, hresp, hkept⟩ :=
      exec_answers (.rdrange r start stop) s e _ he (ruleRdrange_inside start stop e (s.reg r) hin) hfits
    have hbits := hresp.getLsbD
    obtain ⟨hrsp, hstatus, -⟩ := hresp
    refine ⟨t, hexec, hrsp, hstatus, hkept, fun j => ?_⟩
    rw [hbits, testBit_readRange, Bool.and_comm]
  · exact exec_of_rule (.rdrange r start stop) s e _ he (ruleRdrange_outside start stop e (s.reg r) hout)

/-- Settles O18: RDREST is RDRANGE up to the width, where the check on `stop` is one on `start`. -/
theorem rdrestAnswersRest : Obligations.RdrestAnswersRest := by
  intro s r start e hvalid he
  obtain ⟨hinside, houtside⟩ := rdrangeAnswersRange s r start e.width e hvalid he
  rw [exec_rdrest_eq_rdrange r start s e he]
  refine ⟨fun ⟨h0, hw⟩ => ?_, fun hout => houtside (by omega)⟩
  have hlen : ((e.width : Int) - start).toNat = e.width - start.toNat := by omega
  rw [← hlen]
  exact hinside ⟨h0, le_rfl, hw⟩

/-- Settles O19: the three sides of WRRANGE's checks. -/
theorem wrrangeReplacesRange : Obligations.WrrangeReplacesRange := by
  intro s r start size e hlen he
  refine ⟨fun ⟨h0, hsize, hw, hv⟩ => ?_, fun hout => ?_, fun ⟨h0, hsize, hw, hv⟩ => ?_⟩
  · have hrule := ruleWrrange_inside start size s.wdata e (s.reg r) ⟨h0, hsize, hw⟩ hv
    obtain ⟨t, hexec, hresp, helse, hpins, hreg⟩ := exec_writes (.wrrange r start size) s e _ hlen he hrule
    have hreg : t.reg r = replaceBits (s.reg r) start size s.wdata := hreg
    refine ⟨t, hexec, hresp, helse, hpins, fun j => ?_⟩
    rw [hreg, testBit_replaceBits, Int.toNat_add h0 hsize.le]
  · exact exec_of_rule (.wrrange r start size) s e _ he (ruleWrrange_outside start size s.wdata e (s.reg r) hout)
  · exact exec_of_rule (.wrrange r start size) s e _ he
      (ruleWrrange_tooLarge start size s.wdata e (s.reg r) ⟨h0, hsize, hw⟩ hv)

/-- Settles O24: the register check raises UnknownRegisterName, and no rule does. -/
theorem unknownRegisterIndex : Obligations.UnknownRegisterIndex := by
  refine fun i s => ⟨fun hout => ?_, fun hin => ?_⟩
  · rw [exec_eq_execute_ruleOf, s.execute_of_none i.reg _ ((entryAt_eq_none_iff s i.reg).mpr hout)]
  · have he : s.entryAt i.reg = some s.cfg.catalog[i.reg] := List.getElem?_eq_getElem hin
    exact ⟨_, exec_of_entry i s _ he, complete_ruleOf_status i _ _ _ s i.reg⟩

/-- Two legal requests presented back to back run one after the other (R48, R234). -/
theorem step_step_withRequests (s t u : State) (q q' : Request) (i i' : Instr) (hvalid : configError s.cfg = none)
    (hdecode : decode q.cmd = .ok i) (hdecode' : decode q'.cmd = .ok i')
    (hexec : exec i (s.withRequests [q, q']) = .next t) (hexec' : exec i' (t.withRequests [q']) = .next u) :
    step (s.withRequests [q, q']) = .next (t.withRequests [q']) ∧
      step (t.withRequests [q']) = .next (u.withRequests []) := by
  obtain ⟨hcfg, -⟩ := exec_sameShape i _ t hexec
  have hvalid' : configError t.cfg = none := by rw [hcfg, State.withRequests_cfg, hvalid]
  exact ⟨requestsRunInAcceptanceOrder.1 s t q [q'] i hvalid hdecode hexec,
    requestsRunInAcceptanceOrder.1 t u q' [] i' hvalid' hdecode' hexec'⟩

/-- Settles O30: WRBIT gives the bit its value and leaves the others, and RDBIT reads the register it left. -/
theorem singleBitLaws : Obligations.SingleBitLaws := by
  intro s r i e b hinv he hi
  obtain ⟨hr, hfits⟩ := operands_fit s r e hinv.config he
  have hwf := Bool.and_eq_true_iff.mpr ⟨hr, hfits i (by omega) (by omega)⟩
  have hin : 0 ≤ (i : Int) ∧ (i : Int) < e.width := by omega
  generalize hq : Request.mk (encode (.wrbit r i)) (if b then 1 else 0) = q
  generalize hq' : Request.mk (encode (.rdbit r i)) 0 = q'
  have hdecode : decode q.cmd = .ok (.wrbit r i) := by rw [← hq]; exact decode_encode (.wrbit r i) hwf
  have hdecode' : decode q'.cmd = .ok (.rdbit r i) := by rw [← hq']; exact decode_encode (.rdbit r i) hwf
  have hwdata : (s.withRequests [q, q']).wdata = b.toNat := by rw [← hq]; cases b <;> rfl
  obtain ⟨hwrite, -⟩ := wrbitWritesOneBit (s.withRequests [q, q']) r i e hinv.length he
  obtain ⟨t, hexec, hresp, ⟨hcfg, -⟩, -, hbits⟩ :=
    hwrite ⟨hin.1, hin.2, by rw [hwdata]; cases b <;> decide⟩
  have hvalid' : configError (t.withRequests [q']).cfg = none := (congrArg configError hcfg).trans hinv.config
  have he' : (t.withRequests [q']).entryAt r = some e := (entryAt_congr s (t.withRequests [q']) r hcfg).trans he
  obtain ⟨hread, -⟩ := rdbitAnswersBit (t.withRequests [q']) r i e hvalid' he'
  obtain ⟨⟨u, hexec', hresp', -, hx, -⟩, -⟩ := hread hin
  obtain ⟨hstep, hstep'⟩ := step_step_withRequests s t u q q' _ _ hinv.config hdecode hdecode' hexec hexec'
  have hbit : (t.reg r).testBit i = b := by
    rw [hbits, hwdata]
    cases b <;> simp
  refine ⟨_, _, hstep, hstep', hresp, hbit ▸ hresp', hx, clearMask_congr _ _ _ fun j hj => ?_⟩
  have hj : ¬ j = (i : Int).toNat := by
    rw [Nat.one_shiftLeft, Nat.testBit_two_pow, decide_eq_false_iff_not] at hj
    omega
  exact (hbits j).trans (if_neg hj)

/-- Settles O31: WRRANGE gives the range its value and leaves the bits outside, and RDRANGE reads the register it
left. -/
theorem rangeWriteReadsBack : Obligations.RangeWriteReadsBack := by
  intro s r start size v e hinv he hsize hw hv
  obtain ⟨hr, hfits⟩ := operands_fit s r e hinv.config he
  have hstart := Bool.and_eq_true_iff.mpr ⟨hr, hfits start (by omega) (by omega)⟩
  generalize hq : Request.mk (encode (.wrrange r start size)) v = q
  generalize hq' : Request.mk (encode (.rdrange r start ((start : Int) + size))) 0 = q'
  have hdecode : decode q.cmd = .ok (.wrrange r start size) := by
    rw [← hq]
    exact decode_encode (.wrrange r start size) (Bool.and_eq_true_iff.mpr ⟨hstart, hfits size (by omega) (by omega)⟩)
  have hdecode' : decode q'.cmd = .ok (.rdrange r start (start + size)) := by
    rw [← hq']
    exact decode_encode (.rdrange r start (start + size))
      (Bool.and_eq_true_iff.mpr ⟨hstart, hfits (start + size) (by omega) (by omega)⟩)
  have hwdata : (s.withRequests [q, q']).wdata = v.toNat := by rw [← hq]; rfl
  obtain ⟨hwrite, -⟩ := wrrangeReplacesRange (s.withRequests [q, q']) r start size e hinv.length he
  obtain ⟨t, hexec, hresp, ⟨hcfg, -⟩, -, hbits⟩ :=
    hwrite ⟨by omega, by omega, by omega, by rw [hwdata]; exact hv⟩
  have hvalid' : configError (t.withRequests [q']).cfg = none := (congrArg configError hcfg).trans hinv.config
  have he' : (t.withRequests [q']).entryAt r = some e := (entryAt_congr s (t.withRequests [q']) r hcfg).trans he
  obtain ⟨hread, -⟩ := rdrangeAnswersRange (t.withRequests [q']) r start (start + size) e hvalid' he'
  obtain ⟨u, hexec', hrsp, hstatus, ⟨-, hx, -⟩, hanswer⟩ := hread ⟨by omega, by omega, by omega⟩
  obtain ⟨hstep, hstep'⟩ := step_step_withRequests s t u q q' _ _ hinv.config hdecode hdecode' hexec hexec'
  have hend : ((start : Int) + size).toNat = start + size := by omega
  have hlen : ((start : Int) + size - start).toNat = size := by omega
  simp only [hwdata, Int.toNat_natCast, hend] at hbits
  simp only [Int.toNat_natCast, hlen] at hanswer
  have hdata : u.rspRdata = v := BitVec.eq_of_getLsbD_eq fun j _ =>
    (hanswer j).trans (testBit_range_of_replaced _ (t.reg r) v.toNat start size hv hbits j)
  refine ⟨_, _, hstep, hstep', hresp, ⟨hrsp, hstatus, congrArg BitVec.toNat hdata⟩, hx,
    clearMask_congr _ _ _ fun j hj => ?_⟩
  have hj : ¬ (start ≤ j ∧ j < start + size) := by
    simpa only [testBit_fieldmask, ← Bool.decide_and, decide_eq_false_iff_not] using hj
  exact (hbits j).trans (if_neg hj)

/-- Settles O32: the checks refuse a range that starts at the width, and pass one that starts below and ends there. -/
theorem rangeBoundaries : Obligations.RangeBoundaries := by
  intro s r e he
  have hrdrange (stop : Int) : exec (.rdrange r e.width stop) s = .next (s.raise .outOfRange) :=
    exec_of_rule (.rdrange r e.width stop) s e _ he (ruleRdrange_outside e.width stop e (s.reg r) (by omega))
  refine ⟨hrdrange, ?_, fun size => ?_, fun start h0 hw => ?_⟩
  · rw [exec_rdrest_eq_rdrange r e.width s e he, hrdrange]
  · exact exec_of_rule (.wrrange r e.width size) s e _ he
      (ruleWrrange_outside e.width size s.wdata e (s.reg r) (by omega))
  · have hread : ∃ t, exec (.rdrange r start e.width) s = .next t ∧ t.rspStatus = 0 :=
      ⟨_, exec_of_rule (.rdrange r start e.width) s e _ he
        (ruleRdrange_inside start e.width e (s.reg r) ⟨h0, le_rfl, hw⟩), rfl⟩
    refine ⟨hread, exec_rdrest_eq_rdrange r start s e he ▸ hread, fun hv => ?_⟩
    have hlen : e.width - start.toNat = ((e.width : Int) - start).toNat := by omega
    rw [← not_lt, ones_lt_iff, not_le, hlen] at hv
    exact ⟨_, exec_of_rule (.wrrange r start (e.width - start)) s e _ he
      (ruleWrrange_inside start (e.width - start) s.wdata e (s.reg r) (by omega) hv), rfl⟩

/-- Settles O13: a valid width is at most 64, which the read-data path carries. -/
theorem widthAnswersWidth : Obligations.WidthAnswersWidth := by
  intro s r e hvalid he
  obtain ⟨-, ⟨hw1, hw64⟩, -⟩ := entry_of_valid s.cfg r e hvalid he
  obtain ⟨t, hexec, hresp, hkept⟩ := exec_answers (.width r) s e e.width he rfl (by omega)
  exact ⟨t, hexec, hresp, hw1, hw64, hkept⟩

/-- Settles O14: the invariant bounds the value, and every accepted configuration starts in it with its reset values. -/
theorem readAnswersWholeValue : Obligations.ReadAnswersWholeValue := by
  refine ⟨read_answers, fun cfg s r e h he => ?_⟩
  have hinv := instantiate_inv cfg s h
  obtain ⟨-, rfl⟩ := (instantiate_eq_ok cfg s).mp h
  obtain ⟨t, hexec, hresp, -⟩ := read_answers (.ofConfig cfg) r e hinv he
  rw [reg_of_resetValues (.ofConfig cfg) rfl r e he, resetValue, and_ones] at hresp
  exact ⟨t, hexec, hresp⟩

end Sys2Proof.Proofs

/-! The statements about 41_bitfield_view.md: a field request is a range request with fixed operands (R153), from which
what FGET answers (R151), what FSET replaces (R152) and how overlapping fields see each other (R154) follow by the
statements about RDRANGE and WRRANGE. -/

namespace Sys2Proof.Machine

/-! A field as a range: the same bounds check, the same bits. -/

/-- Elaboration has checked that every field starts at 0 or above and is not empty (R150). -/
theorem field_of_valid (s : State) (r k : Nat) (e : RegEntry) (f : FieldEntry) (hvalid : configError s.cfg = none)
    (he : s.entryAt r = some e) (hf : e.fields[k]? = some f) : 0 ≤ f.start ∧ 1 ≤ f.size := by
  obtain ⟨-, -, -, -, hfields⟩ := entry_of_valid s.cfg r e hvalid he
  exact hfields f (List.mem_of_getElem? hf)

/-- For such a field the deferred check of R151 is the whole check of R106. -/
theorem rangeOutside_field (w : Nat) (f : FieldEntry) (h : 0 ≤ f.start ∧ 1 ≤ f.size) :
    rangeOutside w f.start (f.start + f.size) = fieldOutside w f := by
  rw [Bool.eq_iff_iff, rangeOutside_eq_true, fieldOutside, decide_eq_true_iff]
  omega

/-- For such a field the deferred check of R152 is the whole check of R108. -/
theorem spanOutside_field (w : Nat) (f : FieldEntry) (h : 0 ≤ f.start ∧ 1 ≤ f.size) :
    spanOutside w f.start f.size = fieldOutside w f := by
  rw [Bool.eq_iff_iff, spanOutside_eq_true, fieldOutside, decide_eq_true_iff]
  omega

/-- Masking and then shifting reads the bits that shifting and then masking does. -/
theorem readField_eq_readRange (x : Nat) (start size : Int) :
    readField x start size = readRange x start (start + size) := by
  refine Nat.eq_of_testBit_eq fun j => ?_
  rw [testBit_readField, testBit_readRange, add_sub_cancel_left]

theorem ruleFget_eq_ruleRdrange (k : Nat) (e : RegEntry) (f : FieldEntry) (x : Nat) (hf : e.fields[k]? = some f)
    (h : 0 ≤ f.start ∧ 1 ≤ f.size) : ruleFget k e x = ruleRdrange f.start (f.start + f.size) e x := by
  simp only [ruleFget, ruleRdrange, hf, rangeOutside_field e.width f h, readField_eq_readRange]

theorem ruleFset_eq_ruleWrrange (k v : Nat) (e : RegEntry) (f : FieldEntry) (x : Nat) (hf : e.fields[k]? = some f)
    (h : 0 ≤ f.start ∧ 1 ≤ f.size) : ruleFset k v e x = ruleWrrange f.start f.size v e x := by
  simp only [ruleFset, ruleWrrange, hf, spanOutside_field e.width f h]

/-! An index past the field table. -/

theorem ruleFget_missing (k : Nat) (e : RegEntry) (x : Nat) (h : e.fields.length ≤ k) :
    ruleFget k e x = .fail .unknownFieldName := by
  simp only [ruleFget, List.getElem?_eq_none h]

theorem ruleFset_missing (k v : Nat) (e : RegEntry) (x : Nat) (h : e.fields.length ≤ k) :
    ruleFset k v e x = .fail .unknownFieldName := by
  simp only [ruleFset, List.getElem?_eq_none h]

end Sys2Proof.Machine

namespace Sys2Proof.Proofs

open Sys2Proof.Machine

/-- Settles O33: the rules of the two requests are those of the range requests, on every field elaboration accepts. -/
theorem fieldRequestIsRangeRequest : Obligations.FieldRequestIsRangeRequest := by
  intro s r k e f hvalid he hf
  have hfield := field_of_valid s r k e f hvalid he hf
  exact ⟨exec_congr (.fget r k) (.rdrange r f.start (f.start + f.size)) s e he rfl
      (ruleFget_eq_ruleRdrange k e f (s.reg r) hf hfield),
    exec_congr (.fset r k) (.wrrange r f.start f.size) s e he rfl
      (ruleFset_eq_ruleWrrange k s.wdata e f (s.reg r) hf hfield)⟩

/-- Settles O20: a missing field is refused by the rule; an existing one is RDRANGE's range. -/
theorem fgetAnswersField : Obligations.FgetAnswersField := by
  intro s r k e hvalid he
  have hread (f : FieldEntry) (hf : e.fields[k]? = some f) :
      exec (.fget r k) s = exec (.rdrange r f.start (f.start + f.size)) s :=
    (fieldRequestIsRangeRequest s r k e f hvalid he hf).1
  refine ⟨fun f hf hfits => ?_, fun hmissing => ?_, fun f hf hout => ?_⟩
  · obtain ⟨hstart, hsize⟩ := field_of_valid s r k e f hvalid he hf
    obtain ⟨hinside, -⟩ := rdrangeAnswersRange s r f.start (f.start + f.size) e hvalid he
    rw [add_sub_cancel_left] at hinside
    rw [hread f hf]
    exact hinside ⟨hstart, hfits, by omega⟩
  · exact exec_of_rule (.fget r k) s e _ he (ruleFget_missing k e (s.reg r) hmissing)
  · obtain ⟨-, houtside⟩ := rdrangeAnswersRange s r f.start (f.start + f.size) e hvalid he
    rw [hread f hf]
    exact houtside (.inr (.inl hout))

/-- Settles O21: a missing field is refused by the rule; an existing one is WRRANGE's range. -/
theorem fsetReplacesField : Obligations.FsetReplacesField := by
  intro s r k e hvalid hlen he
  have hwrite (f : FieldEntry) (hf : e.fields[k]? = some f) :
      exec (.fset r k) s = exec (.wrrange r f.start f.size) s :=
    (fieldRequestIsRangeRequest s r k e f hvalid he hf).2
  refine ⟨fun f hf hfits hv => ?_, fun hmissing => ?_, fun f hf hout => ?_, fun f hf hfits hv => ?_⟩
  · obtain ⟨hstart, hsize⟩ := field_of_valid s r k e f hvalid he hf
    obtain ⟨hinside, -, -⟩ := wrrangeReplacesRange s r f.start f.size e hlen he
    rw [hwrite f hf]
    exact hinside ⟨hstart, hsize, hfits, hv⟩
  · exact exec_of_rule (.fset r k) s e _ he (ruleFset_missing k s.wdata e (s.reg r) hmissing)
  · obtain ⟨-, houtside, -⟩ := wrrangeReplacesRange s r f.start f.size e hlen he
    rw [hwrite f hf]
    exact houtside (.inr (.inr hout))
  · obtain ⟨hstart, hsize⟩ := field_of_valid s r k e f hvalid he hf
    obtain ⟨-, -, htooLarge⟩ := wrrangeReplacesRange s r f.start f.size e hlen he
    rw [hwrite f hf]
    exact htooLarge ⟨hstart, hsize, hfits, hv⟩

/-- An FSET that answers OK had a field inside the register and a value that fits it (R152). -/
theorem fits_of_fset_ok (s t : State) (r k : Nat) (e : RegEntry) (f : FieldEntry) (hvalid : configError s.cfg = none)
    (hlen : s.x.length = s.cfg.catalog.length) (he : s.entryAt r = some e) (hf : e.fields[k]? = some f)
    (hexec : exec (.fset r k) s = .next t) (hok : t.rspStatus = 0) :
    f.start + f.size ≤ e.width ∧ s.wdata < 2 ^ f.size.toNat := by
  obtain ⟨-, -, houtside, htooLarge⟩ := fsetReplacesField s r k e hvalid hlen he
  have hno (st : Status) (hcode : st.code ≠ 0) : exec (.fset r k) s ≠ .next (s.raise st) := fun hraise => by
    cases hexec.symm.trans hraise
    exact hcode hok
  have hfits : f.start + f.size ≤ e.width := by
    by_contra hout
    exact hno .outOfRange (by decide) (houtside f hf (not_le.mp hout))
  refine ⟨hfits, ?_⟩
  by_contra hv
  exact hno .valueTooLarge (by decide) (htooLarge f hf hfits (not_lt.mp hv))

/-- Settles O34: FGET of the second field reads, in the register FSET left, bits that FSET fixes one by one. -/
theorem overlappingFieldsAreViews : Obligations.OverlappingFieldsAreViews := by
  intro s t r k1 k2 e f1 f2 hvalid hlen he hf1 hf2 hfits2 hexec hok
  obtain ⟨hfits1, hv⟩ := fits_of_fset_ok s t r k1 e f1 hvalid hlen he hf1 hexec hok
  obtain ⟨hwrite, -⟩ := fsetReplacesField s r k1 e hvalid hlen he
  obtain ⟨t', hexec', -, ⟨hcfg, -⟩, -, hbits⟩ := hwrite f1 hf1 hfits1 hv
  cases hexec.symm.trans hexec'
  obtain ⟨hread, -⟩ := fgetAnswersField t r k2 e (hcfg ▸ hvalid) ((entryAt_congr s t r hcfg).trans he)
  obtain ⟨u, hget, -, hstatus, ⟨-, hx, -⟩, hanswer⟩ := hread f2 hf2 hfits2
  exact ⟨u, hget, hstatus, hx, fun j => by rw [hanswer, hbits]⟩

end Sys2Proof.Proofs

/-! The statements about 60_exceptions.md: the status codes (R200), which error a request reports (R201, R202), what an
error leaves alone (R203, R204), and the errors of elaboration (R210). -/

namespace Sys2Proof.Machine

/-! The status codes (R200). -/

/-- The table of R200 read from a code to its status. -/
def statusOfCode (c : BitVec 3) : Status :=
  [.ok, .outOfRange, .invalidBitValue, .valueTooLarge, .invalidDefinition, .unknownRegisterName, .unknownFieldName,
    .illegalCommand].getD c.toNat .illegalCommand

theorem statusOfCode_code (st : Status) : statusOfCode st.code = st := by cases st <;> rfl

theorem Status.code_injective : Function.Injective Status.code :=
  Function.LeftInverse.injective statusOfCode_code

/-! The status a rule ends in, and the first cause (R201, R202). -/

/-- The status the end of a request answers. -/
def Effect.status : Effect → Status
  | .fail st => st
  | .answer _ => .ok
  | .update _ => .ok

@[simp] theorem Effect.status_fail (st : Status) : (Effect.fail st).status = st := rfl
@[simp] theorem Effect.status_answer (v : Nat) : (Effect.answer v).status = .ok := rfl
@[simp] theorem Effect.status_update (v : Nat) : (Effect.update v).status = .ok := rfl

@[simp] theorem complete_rspStatus (s : State) (r : Nat) (f : Effect) :
    (s.complete r f).rspStatus = f.status.code := by
  cases f <;> rfl

theorem headD_one_cause (p : Prop) [Decidable p] (a d : Status) :
    (if p then [a] else []).headD d = if p then a else d := by
  split <;> rfl

theorem headD_two_causes (p q : Prop) [Decidable p] [Decidable q] (a b d : Status) :
    ((if p then [a] else []) ++ (if q then [b] else [])).headD d = if p then a else if q then b else d := by
  by_cases hp : p
  · simp only [if_pos hp, List.cons_append, List.headD_cons]
  · simp only [if_neg hp, List.nil_append, headD_one_cause]

theorem fieldOutside_eq_true (w : Nat) (f : FieldEntry) : fieldOutside w f = true ↔ f.start + f.size > w :=
  decide_eq_true_iff

/-- The checks of each rule come in the order of R202, each under its condition in R201. -/
theorem ruleOf_status (i : Instr) (v : Nat) (e : RegEntry) (x : Nat) :
    (ruleOf i v e x).status = (causesIn e v i).headD .ok := by
  cases i with
  | width r | read r => rfl
  | rdbit r bit =>
    simp only [ruleOf, ruleRdbit, causesIn, headD_one_cause, apply_ite Effect.status, Effect.status_fail,
      Effect.status_answer, bitOutside_eq_true]
  | wrbit r bit =>
    simp only [ruleOf, ruleWrbit, causesIn, headD_two_causes, apply_ite Effect.status, Effect.status_fail,
      Effect.status_update, ite_self, bitOutside_eq_true]
  | rdrange r start stop =>
    simp only [ruleOf, ruleRdrange, causesIn, headD_one_cause, apply_ite Effect.status, Effect.status_fail,
      Effect.status_answer, rangeOutside_eq_true]
  | rdrest r start =>
    have hrest : rangeOutside e.width start e.width = true ↔ start < 0 ∨ start ≥ e.width := by
      rw [rangeOutside_eq_true]
      omega
    simp only [ruleOf, ruleRdrest, causesIn, headD_one_cause, apply_ite Effect.status, Effect.status_fail,
      Effect.status_answer, hrest]
  | wrrange r start size =>
    simp only [ruleOf, ruleWrrange, causesIn, headD_two_causes, apply_ite Effect.status, Effect.status_fail,
      Effect.status_update, spanOutside_eq_true, ones_lt_iff, ge_iff_le]
  | fget r k =>
    cases hk : e.fields[k]? with
    | none => simp only [ruleOf, ruleFget, causesIn, hk, Effect.status_fail, List.headD_cons]
    | some f =>
      simp only [ruleOf, ruleFget, causesIn, hk, headD_one_cause, apply_ite Effect.status, Effect.status_fail,
        Effect.status_answer, fieldOutside_eq_true]
  | fset r k =>
    cases hk : e.fields[k]? with
    | none => simp only [ruleOf, ruleFset, causesIn, hk, Effect.status_fail, List.headD_cons]
    | some f =>
      simp only [ruleOf, ruleFset, causesIn, hk, headD_two_causes, apply_ite Effect.status, Effect.status_fail,
        Effect.status_update, fieldOutside_eq_true, ones_lt_iff, ge_iff_le]

theorem causes_of_none (i : Instr) (s : State) (h : s.entryAt i.reg = none) : causes i s = [.unknownRegisterName] := by
  simp only [causes, h]

theorem causes_of_entry (i : Instr) (s : State) (e : RegEntry) (h : s.entryAt i.reg = some e) :
    causes i s = causesIn e s.wdata i := by
  simp only [causes, h]

/-- The register check comes before every cause of the request's own rule (R100, R202). -/
theorem exec_status (i : Instr) (s t : State) (h : exec i s = .next t) :
    t.rspStatus = ((causes i s).headD .ok).code := by
  cases (exec_eq_execute_ruleOf i s).symm.trans h
  rcases s.execute_cases i.reg (ruleOf i s.wdata) with ⟨hnone, hx⟩ | ⟨e, he, hx⟩
  · rw [hx, causes_of_none i s hnone]
    rfl
  · rw [hx, causes_of_entry i s e he, complete_rspStatus, ruleOf_status]

/-! An error is a `raise`, of a status other than the reserved one (R203, K3). -/

/-- The state is that of an error taken in `s`, and the error is not the one reserved for elaboration. -/
def RaisedFrom (s t : State) : Prop := ∃ st, st ≠ Status.invalidDefinition ∧ t = s.raise st

theorem ruleOf_fail_ne_reserved (i : Instr) (v : Nat) (e : RegEntry) (x : Nat) (st : Status)
    (h : ruleOf i v e x = .fail st) : st ≠ .invalidDefinition := by
  rintro rfl
  exact absurd (ruleOf_fail i v e x .invalidDefinition h) (by decide)

theorem exec_raisedFrom (i : Instr) (s t : State) (h : exec i s = .next t) (hst : t.rspStatus ≠ 0) :
    RaisedFrom s t := by
  cases (exec_eq_execute_ruleOf i s).symm.trans h
  rcases s.execute_cases i.reg (ruleOf i s.wdata) with ⟨-, hx⟩ | ⟨e, -, hx⟩
  · exact ⟨.unknownRegisterName, by decide, hx⟩
  · rw [hx] at hst ⊢
    cases hrule : ruleOf i s.wdata e (s.reg i.reg) with
    | fail st => exact ⟨st, ruleOf_fail_ne_reserved i _ e _ st hrule, rfl⟩
    | answer v | update v => exact absurd (by rw [hrule]; rfl) hst

theorem clockEdge_raisedFrom (s t : State) (h : clockEdge s = .next t) (hst : t.rspStatus ≠ 0) : RaisedFrom s t := by
  rcases clockEdge_cases s with ⟨-, he⟩ | ⟨-, -, i, -, he⟩ | ⟨-, -, e, -, he⟩ | ⟨-, -, he⟩
  case inl => cases he.symm.trans h; exact absurd rfl hst
  case inr.inl => exact exec_raisedFrom i s t (he.symm.trans h) hst
  case inr.inr.inl => cases he.symm.trans h; exact ⟨.illegalCommand, by decide, rfl⟩
  case inr.inr.inr => cases he.symm.trans h; exact absurd rfl hst

/-- A step that answers an error is one `raise`, and then the pins' next values. -/
theorem step_raisedFrom (s t : State) (h : step s = .next t) (hst : t.rspStatus ≠ 0) :
    ∃ u, RaisedFrom s u ∧ t = u.advance := by
  obtain ⟨u, hedge, rfl⟩ := step_eq_next s t h
  exact ⟨u, clockEdge_raisedFrom s u hedge hst, rfl⟩

/-! What a refusal says of the configuration (R210, R233). -/

/-- The defect of the catalog entry `e` of index `r` that each error names (R233, steps 2a to 2e). -/
inductive EntryDefect (allowed : List String) (r : Nat) (e : RegEntry) : ConfigError → Prop
  | unknownRegisterName (h : e.name ∉ allowed) : EntryDefect allowed r e (.unknownRegisterName r)
  | badWidth (h : e.width < 1 ∨ 64 < e.width) : EntryDefect allowed r e (.badWidth r)
  | badInit (h : e.init < 0) : EntryDefect allowed r e (.badInit r)
  | tooManyFields (h : 256 < e.fields.length) : EntryDefect allowed r e (.tooManyFields r)
  | invalidDefinition (k : Nat) (f : FieldEntry) (hf : f ∈ e.fields) (h : f.start < 0 ∨ f.size < 1) :
    EntryDefect allowed r e (.invalidDefinition r k)

theorem fieldEntryOk_eq_false (f : FieldEntry) : fieldEntryOk f = false ↔ f.start < 0 ∨ f.size < 1 := by
  rw [← Bool.not_eq_true, fieldEntryOk_iff]
  omega

theorem checkFields_eq_some (r k : Nat) (fs : List FieldEntry) (err : ConfigError) (h : checkFields r k fs = some err) :
    ∃ j, err = .invalidDefinition r j ∧ ∃ f ∈ fs, f.start < 0 ∨ f.size < 1 := by
  induction fs generalizing k with
  | nil => cases h
  | cons f fs ih =>
    cases hok : fieldEntryOk f with
    | true =>
      simp only [checkFields, hok, if_true] at h
      obtain ⟨j, herr, g, hg, hbad⟩ := ih (k + 1) h
      exact ⟨j, herr, g, List.mem_cons_of_mem f hg, hbad⟩
    | false =>
      simp only [checkFields, hok, Bool.false_eq_true, if_false, Option.some.injEq] at h
      exact ⟨k, h.symm, f, List.mem_cons_self, (fieldEntryOk_eq_false f).mp hok⟩

theorem checkEntry_eq_some (allowed : List String) (r : Nat) (e : RegEntry) (err : ConfigError)
    (h : checkEntry allowed r e = some err) : EntryDefect allowed r e err := by
  unfold checkEntry at h
  split at h
  case isTrue hname => cases h; exact .unknownRegisterName hname
  split at h
  case isTrue hwidth => cases h; exact .badWidth hwidth
  split at h
  case isTrue hinit => cases h; exact .badInit hinit
  split at h
  case isTrue hcount => cases h; exact .tooManyFields hcount
  obtain ⟨k, rfl, f, hf, hbad⟩ := checkFields_eq_some r 0 e.fields err h
  exact .invalidDefinition k f hf hbad

theorem checkEntries_eq_some (allowed : List String) (r : Nat) (es : List RegEntry) (err : ConfigError)
    (h : checkEntries allowed r es = some err) :
    ∃ k e, es[k]? = some e ∧ checkEntry allowed (r + k) e = some err := by
  induction es generalizing r with
  | nil => cases h
  | cons e es ih =>
    cases he : checkEntry allowed r e with
    | some err' =>
      simp only [checkEntries, he] at h
      exact ⟨0, e, rfl, he.trans h⟩
    | none =>
      simp only [checkEntries, he] at h
      obtain ⟨k, e', hk, hcheck⟩ := ih (r + 1) h
      exact ⟨k + 1, e', hk, by rwa [Nat.add_assoc, Nat.add_comm 1 k] at hcheck⟩

/-- A refused configuration has a bad number of entries, or an entry with the defect the error names. -/
theorem configError_eq_some (cfg : Config) (err : ConfigError) (h : configError cfg = some err) :
    err = .badCount ∨ ∃ r e, cfg.catalog[r]? = some e ∧ EntryDefect cfg.allowedNames r e err := by
  unfold configError at h
  split at h
  case isTrue => cases h; exact .inl rfl
  obtain ⟨r, e, he, hcheck⟩ := checkEntries_eq_some cfg.allowedNames 0 cfg.catalog err h
  rw [Nat.zero_add] at hcheck
  exact .inr ⟨r, e, he, checkEntry_eq_some cfg.allowedNames r e err hcheck⟩

theorem instantiate_eq_error (cfg : Config) (err : ConfigError) :
    instantiate cfg = .error err ↔ configError cfg = some err := by
  cases h : configError cfg <;> simp [instantiate, h]

end Sys2Proof.Machine

namespace Sys2Proof.Proofs

open Sys2Proof.Machine

/-- Settles O25: the rules check in the order of the causes, after the register check, and an illegal word runs no
rule. -/
theorem errorPriority : Obligations.ErrorPriority := by
  refine ⟨fun i s => ?_, fun s t hcfg hrst hvalid hstep => ?_⟩
  · have hexec := exec_eq_execute_ruleOf i s
    exact ⟨_, hexec, exec_status i s _ hexec⟩
  · rw [step_of_request s hcfg hrst hvalid] at hstep
    cases hdecode : decode s.port.cmd with
    | error e =>
      rw [acceptRequest_of_error s e hdecode] at hstep
      cases hstep
      rfl
    | ok i =>
      have hexec := exec_eq_execute_ruleOf i s
      have hstatus := exec_status i s _ hexec
      rw [acceptRequest_of_ok s i hdecode, hexec] at hstep
      cases hstep
      exact hstatus

/-- Settles O22, field by field of the state. -/
theorem errorEntryLeavesState : Obligations.ErrorEntryLeavesState := fun s st =>
  ⟨⟨s.raise_rspValid st, s.raise_rspStatus st, congrArg BitVec.toNat (s.raise_rspRdata st)⟩,
    s.raise_cfg st, s.raise_x st, s.raise_port st, s.raise_later st⟩

/-- Settles O26: a status other than OK comes from a `raise`, which writes nothing. -/
theorem failedRequestChangesNothing : Obligations.FailedRequestChangesNothing := by
  refine ⟨fun i s t h hst => ?_, fun s t h hst => ?_⟩
  · obtain ⟨st, -, rfl⟩ := exec_raisedFrom i s t h hst
    obtain ⟨-, hkept⟩ := errorEntryLeavesState s st
    exact ⟨s.raise_rspRdata st, hkept⟩
  · obtain ⟨_, ⟨st, -, rfl⟩, rfl⟩ := step_raisedFrom s t h hst
    exact ⟨s.raise_rspRdata st, s.raise_x st, s.raise_cfg st⟩

/-- Settles O27: code 4 would come from a `raise`, and no `raise` of a step is of the reserved status. -/
theorem reservedStatusNeverAnswered : Obligations.ReservedStatusNeverAnswered := by
  intro s t h hreserved
  have hst : t.rspStatus ≠ 0 := by rw [hreserved]; decide
  obtain ⟨_, ⟨st, hne, rfl⟩, rfl⟩ := step_raisedFrom s t h hst
  exact code_ne_reserved st hne hreserved

/-- Settles O42: each of the two errors names a defect of one entry, and elaboration accepts no entry with either. -/
theorem configurationErrorKinds : Obligations.ConfigurationErrorKinds := by
  refine ⟨fun cfg err h hkind => ?_, fun cfg err h hkind => ?_, fun cfg _ _ hdefect => ?_⟩
  · obtain rfl | ⟨r, e, he, hentry⟩ := configError_eq_some cfg err h
    · cases hkind
    · cases hentry with
      | unknownRegisterName hname => exact ⟨e, List.mem_of_getElem? he, hname⟩
      | badWidth | badInit | tooManyFields | invalidDefinition => cases hkind
  · obtain rfl | ⟨r, e, he, hentry⟩ := configError_eq_some cfg err h
    · cases hkind
    · cases hentry with
      | invalidDefinition k f hf hbad => exact ⟨e, List.mem_of_getElem? he, f, hf, hbad⟩
      | unknownRegisterName | badWidth | badInit | tooManyFields => cases hkind
  · cases herr : configError cfg with
    | some err => exact ⟨err, (instantiate_eq_error cfg err).mpr herr⟩
    | none =>
      exfalso
      rcases hdefect with ⟨e, he, hname⟩ | ⟨e, he, f, hf, hbad⟩
      · obtain ⟨r, hr⟩ := List.getElem?_of_mem he
        obtain ⟨hallowed, -⟩ := entry_of_valid cfg r e herr hr
        exact hname hallowed
      · obtain ⟨r, hr⟩ := List.getElem?_of_mem he
        obtain ⟨-, -, -, -, hfields⟩ := entry_of_valid cfg r e herr hr
        obtain ⟨hstart, hsize⟩ := hfields f hf
        omega

/-- Settles O23: the codes are those of the table, and the table read backwards tells the statuses apart. -/
theorem statusCodesAsListed : Obligations.StatusCodesAsListed :=
  ⟨rfl, rfl, rfl, rfl, rfl, rfl, rfl, rfl, Status.code_injective⟩

end Sys2Proof.Proofs

/-! The statements about 70_reset_and_hazards.md: what each kind of edge does (R230, R231, R234, R236), and the checks of
elaboration in their order (R233). -/

namespace Sys2Proof.Machine

/-! The step at a reset edge, at an idle edge, and of a refused configuration; `step_of_request` is the step at an edge
with a request. -/

/-- A reset edge looks at no pin but `rst` (R231). -/
theorem step_of_reset (s : State) (hcfg : configError s.cfg = none) (hrst : s.port.rst = true) :
    step s = .next s.applyReset.advance := by
  simp [step, clockEdge, hcfg, hrst]

theorem step_of_idle (s : State) (hcfg : configError s.cfg = none) (hrst : s.port.rst = false)
    (hvalid : s.port.reqValid = false) : step s = .next s.idleEdge.advance := by
  simp [step, clockEdge, hcfg, hrst, hvalid]

theorem step_of_invalid (s : State) (e : ConfigError) (hcfg : configError s.cfg = some e) :
    step s = .refused (.invalidConfiguration e) := by
  simp [step, hcfg]

/-- The step after a reset edge starts from the same state whatever else the pins carried: the reset reads only the
configuration, and the pins move on. -/
theorem applyReset_advance_withPort (s : State) (p : PortIn) :
    ({ s with port := p } : State).applyReset.advance = s.applyReset.advance := rfl

/-- After a reset edge every register holds its initial value modulo `2^W` (R30, R230). -/
theorem reg_applyReset_advance (s : State) (r : Nat) (e : RegEntry) (he : s.entryAt r = some e) :
    s.applyReset.advance.reg r = e.init.toNat % 2 ^ e.width := by
  rw [reg_of_resetValues s.applyReset.advance rfl r e he, resetValue, and_ones]

/-! The first element of a list that fails a check. -/

/-- Some element of the list fails, and every element before it passes; both may depend on the position. -/
def FirstFailure {α : Type} (Fails Passes : Nat → α → Prop) (l : List α) : Prop :=
  ∃ k a, l[k]? = some a ∧ Fails k a ∧ ∀ q b, q < k → l[q]? = some b → Passes q b

theorem firstFailure_nil {α : Type} (Fails Passes : Nat → α → Prop) : ¬ FirstFailure Fails Passes [] := by
  rintro ⟨k, a, hk, -⟩
  cases hk

/-- The head fails, or it passes and the first failure is in the tail. -/
theorem firstFailure_cons {α : Type} (Fails Passes : Nat → α → Prop) (a : α) (l : List α) :
    FirstFailure Fails Passes (a :: l) ↔
      Fails 0 a ∨ Passes 0 a ∧ FirstFailure (fun k => Fails (k + 1)) (fun k => Passes (k + 1)) l := by
  constructor
  · rintro ⟨k, b, hk, hfails, hbefore⟩
    cases k with
    | zero => cases hk; exact .inl hfails
    | succ k =>
      exact .inr ⟨hbefore 0 a k.succ_pos rfl, k, b, hk, hfails,
        fun q c hq hc => hbefore (q + 1) c (Nat.succ_lt_succ hq) hc⟩
  · rintro (hfails | ⟨hpasses, k, b, hk, hfails, hbefore⟩)
    · exact ⟨0, a, rfl, hfails, fun q c hq _ => absurd hq q.not_lt_zero⟩
    · refine ⟨k + 1, b, hk, hfails, fun q c hq hc => ?_⟩
      cases q with
      | zero => cases hc; exact hpasses
      | succ q => exact hbefore q c (Nat.lt_of_succ_lt_succ hq) hc

/-! The checks that refuse a configuration (R233); where they pass is in Laws/Elaborate. -/

/-- Step 2e refuses the first bad field entry, by its index. -/
theorem checkFields_eq_some_iff (r k j : Nat) (fs : List FieldEntry) :
    checkFields r k fs = some (.invalidDefinition r j) ↔
      FirstFailure (fun i f => (f.start < 0 ∨ f.size < 1) ∧ k + i = j) (fun _ f => 0 ≤ f.start ∧ 1 ≤ f.size) fs := by
  induction fs generalizing k with
  | nil => simp [checkFields, firstFailure_nil]
  | cons f fs ih =>
    rw [firstFailure_cons, ← fieldEntryOk_iff, ← fieldEntryOk_eq_false]
    have htail := ih (k + 1)
    simp only [Nat.add_assoc, Nat.add_comm 1] at htail
    cases hok : fieldEntryOk f with
    | true => simp [checkFields, hok, htail]
    | false => simp [checkFields, hok]

/-- The first failing check of the catalog entry `e` of index `r`: each error with the checks before it passed (R233,
steps 2a to 2e). `EntryDefect` is the same without the checks before. -/
inductive FirstDefect (allowed : List String) (r : Nat) (e : RegEntry) : ConfigError → Prop
  | unknownRegisterName (hname : e.name ∉ allowed) : FirstDefect allowed r e (.unknownRegisterName r)
  | badWidth (hname : e.name ∈ allowed) (hwidth : e.width < 1 ∨ 64 < e.width) : FirstDefect allowed r e (.badWidth r)
  | badInit (hname : e.name ∈ allowed) (hwidth : 1 ≤ e.width ∧ e.width ≤ 64) (hinit : e.init < 0) :
    FirstDefect allowed r e (.badInit r)
  | tooManyFields (hname : e.name ∈ allowed) (hwidth : 1 ≤ e.width ∧ e.width ≤ 64) (hinit : 0 ≤ e.init)
    (hcount : 256 < e.fields.length) : FirstDefect allowed r e (.tooManyFields r)
  | invalidDefinition (k : Nat) (hname : e.name ∈ allowed) (hwidth : 1 ≤ e.width ∧ e.width ≤ 64) (hinit : 0 ≤ e.init)
    (hcount : e.fields.length ≤ 256) (hfield : ∃ f, e.fields[k]? = some f ∧ (f.start < 0 ∨ f.size < 1))
    (hbefore : ∀ j f, j < k → e.fields[j]? = some f → 0 ≤ f.start ∧ 1 ≤ f.size) :
    FirstDefect allowed r e (.invalidDefinition r k)

theorem firstDefect_of_checkEntry (allowed : List String) (r : Nat) (e : RegEntry) (err : ConfigError)
    (h : checkEntry allowed r e = some err) : FirstDefect allowed r e err := by
  unfold checkEntry at h
  split at h
  case isTrue hname => cases h; exact .unknownRegisterName hname
  rename_i hname
  have hname := not_not.mp hname
  split at h
  case isTrue hwidth => cases h; exact .badWidth hname hwidth
  rename_i hwidth
  have hwidth : 1 ≤ e.width ∧ e.width ≤ 64 := by omega
  split at h
  case isTrue hinit => cases h; exact .badInit hname hwidth hinit
  rename_i hinit
  have hinit := not_lt.mp hinit
  split at h
  case isTrue hcount => cases h; exact .tooManyFields hname hwidth hinit hcount
  rename_i hcount
  obtain ⟨j, rfl, -⟩ := checkFields_eq_some r 0 e.fields err h
  obtain ⟨k, f, hf, ⟨hbad, hk⟩, hbefore⟩ := (checkFields_eq_some_iff r 0 j e.fields).mp h
  rw [Nat.zero_add] at hk
  subst hk
  exact .invalidDefinition k hname hwidth hinit (not_lt.mp hcount) ⟨f, hf, hbad⟩ hbefore

theorem checkEntry_of_firstDefect (allowed : List String) (r : Nat) (e : RegEntry) (err : ConfigError)
    (h : FirstDefect allowed r e err) : checkEntry allowed r e = some err := by
  cases h with
  | unknownRegisterName hname => simp [checkEntry, hname]
  | badWidth hname hwidth => simp only [checkEntry, hname, hwidth, not_true_eq_false, if_true, if_false]
  | badInit hname hwidth hinit =>
    have hwidth : ¬ (e.width < 1 ∨ 64 < e.width) := by omega
    simp only [checkEntry, hname, hwidth, hinit, not_true_eq_false, if_true, if_false]
  | tooManyFields hname hwidth hinit hcount =>
    have hwidth : ¬ (e.width < 1 ∨ 64 < e.width) := by omega
    simp only [checkEntry, hname, hwidth, hinit.not_gt, hcount, not_true_eq_false, if_true, if_false]
  | invalidDefinition k hname hwidth hinit hcount hfield hbefore =>
    have hwidth : ¬ (e.width < 1 ∨ 64 < e.width) := by omega
    obtain ⟨f, hf, hbad⟩ := hfield
    have hfields : checkFields r 0 e.fields = some (.invalidDefinition r k) :=
      (checkFields_eq_some_iff r 0 k e.fields).mpr ⟨k, f, hf, ⟨hbad, k.zero_add⟩, hbefore⟩
    simp only [checkEntry, hname, hwidth, hinit.not_gt, hcount.not_gt, hfields, not_true_eq_false, if_false]

/-- What the checks of one entry refuse, and with which error. -/
theorem checkEntry_eq_some_iff (allowed : List String) (r : Nat) (e : RegEntry) (err : ConfigError) :
    checkEntry allowed r e = some err ↔ FirstDefect allowed r e err :=
  ⟨firstDefect_of_checkEntry allowed r e err, checkEntry_of_firstDefect allowed r e err⟩

/-- The entries are refused with the error of the first one that fails its checks. -/
theorem checkEntries_eq_some_iff (allowed : List String) (r : Nat) (es : List RegEntry) (err : ConfigError) :
    checkEntries allowed r es = some err ↔
      FirstFailure (fun k e => checkEntry allowed (r + k) e = some err)
        (fun k e => checkEntry allowed (r + k) e = none) es := by
  induction es generalizing r with
  | nil => simp [checkEntries, firstFailure_nil]
  | cons e es ih =>
    rw [firstFailure_cons]
    have htail := ih (r + 1)
    simp only [Nat.add_assoc, Nat.add_comm 1] at htail
    cases he : checkEntry allowed r e with
    | some err' => simp [checkEntries, he]
    | none => simp [checkEntries, he, htail]

/-! The configuration: the count first, then the entries. -/

theorem configError_of_badCount (cfg : Config) (h : cfg.catalog.length < 1 ∨ 256 < cfg.catalog.length) :
    configError cfg = some .badCount := if_pos h

theorem configError_of_count (cfg : Config) (h : 1 ≤ cfg.catalog.length ∧ cfg.catalog.length ≤ 256) :
    configError cfg = checkEntries cfg.allowedNames 0 cfg.catalog := if_neg (by omega)

/-- An error other than the bad count, or none, is found only past the count check. -/
theorem count_of_configError_ne (cfg : Config) (h : configError cfg ≠ some .badCount) :
    1 ≤ cfg.catalog.length ∧ cfg.catalog.length ≤ 256 := by
  by_contra hcount
  exact h (configError_of_badCount cfg (by omega))

/-- No check of an entry answers `badCount`. -/
theorem configError_eq_badCount_iff (cfg : Config) :
    configError cfg = some .badCount ↔ cfg.catalog.length < 1 ∨ 256 < cfg.catalog.length := by
  refine ⟨fun h => ?_, configError_of_badCount cfg⟩
  by_contra hcount
  rw [configError_of_count cfg (by omega)] at h
  obtain ⟨r, e, -, hcheck⟩ := checkEntries_eq_some cfg.allowedNames 0 cfg.catalog _ h
  cases checkEntry_eq_some _ _ e _ hcheck

theorem configError_eq_some_iff (cfg : Config) (err : ConfigError) (hne : err ≠ .badCount) :
    configError cfg = some err ↔ (1 ≤ cfg.catalog.length ∧ cfg.catalog.length ≤ 256) ∧
      FirstFailure (fun r e => checkEntry cfg.allowedNames r e = some err)
        (fun r e => checkEntry cfg.allowedNames r e = none) cfg.catalog := by
  have hentries := checkEntries_eq_some_iff cfg.allowedNames 0 cfg.catalog err
  simp only [Nat.zero_add] at hentries
  constructor
  · intro h
    have hcount := count_of_configError_ne cfg fun hbad => hne (Option.some.inj (h.symm.trans hbad))
    exact ⟨hcount, hentries.mp ((configError_of_count cfg hcount).symm.trans h)⟩
  · rintro ⟨hcount, hfirst⟩
    exact (configError_of_count cfg hcount).trans (hentries.mpr hfirst)

theorem configError_eq_none_iff (cfg : Config) :
    configError cfg = none ↔ (1 ≤ cfg.catalog.length ∧ cfg.catalog.length ≤ 256) ∧ ∀ e ∈ cfg.catalog,
      e.name ∈ cfg.allowedNames ∧ (1 ≤ e.width ∧ e.width ≤ 64) ∧ 0 ≤ e.init ∧ e.fields.length ≤ 256 ∧
      ∀ f ∈ e.fields, 0 ≤ f.start ∧ 1 ≤ f.size := by
  constructor
  · intro h
    refine ⟨count_of_configError_ne cfg (by simp [h]), fun e he => ?_⟩
    obtain ⟨r, hr⟩ := List.getElem?_of_mem he
    exact entry_of_valid cfg r e h hr
  · rintro ⟨hcount, hentries⟩
    refine (configError_of_count cfg hcount).trans ((checkEntries_eq_none _ _ _).mpr fun r e hr => ?_)
    simpa only [checkEntry_eq_none, fieldEntryOk_iff] using hentries e (List.mem_of_getElem? hr)

end Sys2Proof.Machine

namespace Sys2Proof.Proofs

open Sys2Proof.Machine

/-- Settles O11: everything a step can do is an edge or the refusal of the configuration, and there is no fault. -/
theorem everyEdgeCompletes : Obligations.EveryEdgeCompletes := by
  refine ⟨fun s hvalid => ?_, fun _ => nofun, step_of_invalid⟩
  rcases step_cases s with ⟨e, hinvalid, -⟩ | ⟨-, t, -, hstep⟩
  · cases hvalid.symm.trans hinvalid
  · exact ⟨t.advance, hstep⟩

/-- Settles O41: the count check, the first failing entry, and the first failing check of an entry. -/
theorem elaborationChecksInOrder : Obligations.ElaborationChecksInOrder := by
  refine ⟨configError_eq_none_iff, configError_eq_badCount_iff, configError_eq_some_iff,
    fun allowed r e => ?_, instantiate_eq_error⟩
  simp only [checkEntry_eq_some_iff]
  refine ⟨⟨fun h => ?_, .unknownRegisterName⟩, ⟨fun h => ?_, fun ⟨hname, hwidth⟩ => .badWidth hname hwidth⟩,
    ⟨fun h => ?_, fun ⟨hname, hwidth, hinit⟩ => .badInit hname hwidth hinit⟩,
    ⟨fun h => ?_, fun ⟨hname, hwidth, hinit, hcount⟩ => .tooManyFields hname hwidth hinit hcount⟩,
    fun k => ⟨fun h => ?_, fun ⟨hname, hwidth, hinit, hcount, hfield, hbefore⟩ =>
      .invalidDefinition k hname hwidth hinit hcount hfield hbefore⟩⟩
  · cases h with | unknownRegisterName hname => exact hname
  · cases h with | badWidth hname hwidth => exact ⟨hname, hwidth⟩
  · cases h with | badInit hname hwidth hinit => exact ⟨hname, hwidth, hinit⟩
  · cases h with | tooManyFields hname hwidth hinit hcount => exact ⟨hname, hwidth, hinit, hcount⟩
  · cases h with
    | invalidDefinition k hname hwidth hinit hcount hfield hbefore =>
      exact ⟨hname, hwidth, hinit, hcount, hfield, hbefore⟩

/-- Settles O7: the edge accepts the request, and what decodes is well formed. -/
theorem stepRunsDecodedRequest : Obligations.StepRunsDecodedRequest := by
  intro s i hcfg hrst hvalid hdecode
  rw [step_of_request s hcfg hrst hvalid, acceptRequest_of_ok s i hdecode]
  exact ⟨rfl, wellFormed_of_decode s.port.cmd i hdecode⟩

/-- Settles O9: the step is the reset and the pins moving on, and neither sees the request on the pins. -/
theorem resetEdgeOverridesRequest : Obligations.ResetEdgeOverridesRequest := by
  intro s hcfg hrst
  have hstep := step_of_reset s hcfg hrst
  refine ⟨s.applyReset.advance, hstep, rfl, applyReset_length s, reg_applyReset_advance s, rfl, rfl, rfl, fun p => ?_⟩
  rw [hstep, step_of_reset { s with port := { p with rst := true } } hcfg rfl, applyReset_advance_withPort]

/-- Settles O10: the step clears the response and moves the pins on. -/
theorem idleEdgeKeepsRegisters : Obligations.IdleEdgeKeepsRegisters := fun s hcfg hrst hvalid =>
  ⟨s.idleEdge.advance, step_of_idle s hcfg hrst hvalid, rfl, rfl, rfl, rfl, rfl⟩

end Sys2Proof.Proofs

/-! The statement about the interleavings of the requesters' requests (20_memory.md R48, 92_eei_decisions.md D25). -/

namespace Sys2Proof.Machine

/-- A turn of a requester with `q` at the head of its queue serves `q`. -/
theorem arbitrate_cons_of_getElem? (n : Nat) (order : List Nat) (queues : List (List Request)) (q : Request)
    (qs : List Request) (hqueue : queues[n]? = some (q :: qs)) :
    arbitrate (n :: order) queues = (n, q) :: arbitrate order (queues.set n qs) := by
  have htake := (takeFrom_eq_some_iff n queues (queues.set n qs) q).mpr ⟨qs, hqueue, rfl⟩
  simp only [arbitrate, htake]

/-- If `run` with `q` of requester `n` in front empties the queues, then `run` empties what the turn of `n` leaves. -/
theorem servedOf_eq_getD_set (n : Nat) (q : Request) (run : List (Nat × Request)) (queues : List (List Request))
    (hserved : ∀ m, servedOf m ((n, q) :: run) = queues.getD m []) (hlt : n < queues.length) (m : Nat) :
    servedOf m run = (queues.set n (servedOf n run)).getD m [] := by
  by_cases hm : n = m
  · subst hm
    simp [hlt]
  · have hother := hserved m
    rw [servedOf_cons_ne m n q run hm] at hother
    simpa [hm] using hother

/-- The first request of a run is at the head of its requester's queue, so the run's own order serves it first. -/
theorem arbitrate_own_order (run : List (Nat × Request)) (queues : List (List Request))
    (hserved : ∀ n, servedOf n run = queues.getD n []) : arbitrate (run.map (·.1)) queues = run := by
  induction run generalizing queues with
  | nil => rfl
  | cons first run ih =>
    obtain ⟨n, q⟩ := first
    have hhead : queues.getD n [] = q :: servedOf n run := by rw [← hserved n, servedOf_cons_self]
    have hlt : n < queues.length := by
      by_contra hge
      simp [List.getElem?_eq_none (Nat.le_of_not_lt hge)] at hhead
    have hqueue : queues[n]? = some (q :: servedOf n run) := by
      rw [← hhead, List.getD_eq_getElem _ _ hlt, List.getElem?_eq_getElem hlt]
    rw [List.map_cons, arbitrate_cons_of_getElem? n _ queues q _ hqueue,
      ih _ (servedOf_eq_getD_set n q run queues hserved hlt)]

end Sys2Proof.Machine

namespace Sys2Proof.Proofs

open Sys2Proof.Machine

/-- Settles O44, by induction on the run. -/
theorem arbiterReachesEveryInterleaving : Obligations.ArbiterReachesEveryInterleaving := arbitrate_own_order

end Sys2Proof.Proofs
